-- ==== Sys2Proof/Word.lean ====
section
/-! DEFINITION. The words, lanes, vectors, matrices, colours and screen positions the registers are made of
(spec/10_state.md R20, spec/00_scope.md R12). -/

namespace Sys2Proof

/-- A register word or a command word, 32 bits (00_scope.md R5). -/
abbrev Word := BitVec 32

/-- A 16-bit register field; signed or unsigned as the register says (10_state.md R20). -/
abbrev Half := BitVec 16

/-- A colour byte (10_state.md R23). -/
abbrev Byte := BitVec 8

/-- One of the three parallel datapaths, ending in `MAC<i>` and `IR<i>` (00_scope.md R12). -/
inductive Lane where
  | one
  | two
  | three
  deriving DecidableEq, Repr

/-- Three values, one a lane: x/y/z, r/g/b, or the three elements of a matrix row (00_scope.md R13). -/
structure Vec3 (α : Type) where
  x : α
  y : α
  z : α
  deriving DecidableEq, Repr

/-- The element of a lane. -/
def Vec3.get {α : Type} (v : Vec3 α) : Lane → α
  | .one => v.x
  | .two => v.y
  | .three => v.z

/-- Replace the element of a lane. -/
def Vec3.set {α : Type} (v : Vec3 α) (i : Lane) (a : α) : Vec3 α :=
  match i with
  | .one => { v with x := a }
  | .two => { v with y := a }
  | .three => { v with z := a }

/-- Apply a function lane by lane. -/
def Vec3.map {α β : Type} (f : α → β) (v : Vec3 α) : Vec3 β :=
  { x := f v.x, y := f v.y, z := f v.z }

/-- A 3×3 matrix of signed 16-bit elements, row by row (10_state.md R33, R35, R37). -/
structure Mat3 where
  row1 : Vec3 Half
  row2 : Vec3 Half
  row3 : Vec3 Half
  deriving DecidableEq, Repr

/-- The row that feeds a lane: row `i` of the matrix makes lane `i` (40_arith_core.md R107). -/
def Mat3.row (m : Mat3) : Lane → Vec3 Half
  | .one => m.row1
  | .two => m.row2
  | .three => m.row3

/-- A packed colour: four bytes (10_state.md R23, R28). -/
structure Color where
  r : Byte
  g : Byte
  b : Byte
  code : Byte
  deriving DecidableEq, Repr

/-- A screen position: two signed 16-bit halves (10_state.md R26). -/
structure ScreenXY where
  x : Half
  y : Half
  deriving DecidableEq, Repr

end Sys2Proof
end

