-- ==== Sys2Proof/Config.lean ====
section
/-! DEFINITION. The names the maps of the configuration speak of (operand selectors, host registers, instructions, flag
conditions) and the configuration itself (spec/00_scope.md R5: FLAGMAP, REGMAP, CMDFIELDS, OPCODES, RECIP, LIGHT_PIPELINE,
RTPS_DEPTH_CUE, RESET_STATE, RESERVED_MATRIX). The spec's default of each is a definition of its own in Decode.lean or
Machine/, where a later repair may mend it; `Machine.params` (Machine/Params.lean) gathers them. -/

namespace Sys2Proof

/-- The three matrices (10_state.md R33, R35, R37). -/
inductive MatrixName where
  | rt
  | l
  | lr
  deriving DecidableEq, Repr

/-- The three translation vectors (10_state.md R34, R36, R38). -/
inductive TransName where
  | tr
  | bk
  | fc
  deriving DecidableEq, Repr

/-- What the `mx` field selects: a matrix, or the value the document calls reserved (30_encoding.md R85, R89). -/
inductive MatrixSel where
  | mat (m : MatrixName)
  | reserved
  deriving DecidableEq, Repr

/-- What the `vx` field selects: a stored vertex, or `(IR1, IR2, IR3)` (30_encoding.md R85). -/
inductive VectorSel where
  | vertex (n : Fin 3)
  | ir
  deriving DecidableEq, Repr

/-- What the `tx` field selects: a translation vector, or none (30_encoding.md R85). -/
inductive TransSel where
  | vec (t : TransName)
  | zero
  deriving DecidableEq, Repr

/-- The host-visible registers, by what lies behind the index (10_state.md R21, R154 of 41_register_access.md). -/
inductive HostReg where
  /-- `VXY<n>`: `V[n].x` and `V[n].y` -/
  | vxy (n : Fin 3)
  /-- `VZ<n>` -/
  | vz (n : Fin 3)
  | rgbc
  | otz
  | ir0
  /-- `IR1`, `IR2`, `IR3` -/
  | ir (i : Lane)
  /-- `SXY0`, `SXY1`, `SXY2` -/
  | sxy (k : Fin 3)
  /-- `SXY3`, the second name of `SXY2` (10_state.md R26) -/
  | sxy3
  | sz (k : Fin 4)
  | rgb (k : Fin 3)
  | res1
  | mac0
  /-- `MAC1`, `MAC2`, `MAC3` -/
  | mac (i : Lane)
  /-- the view `IRGB` of `IR1..3` -/
  | irgb
  /-- the read-only view `ORGB` of `IR1..3` -/
  | orgb
  | lzcs
  /-- the read-only leading-zero count of `LZCS` -/
  | lzcr
  /-- the word that packs elements `e(2j)` and `e(2j+1)` of a matrix (41_register_access.md R147) -/
  | matPair (m : MatrixName) (j : Fin 4)
  /-- the word that holds a matrix's last element -/
  | mat33 (m : MatrixName)
  /-- one element of a translation vector -/
  | trans (t : TransName) (i : Lane)
  | ofx
  | ofy
  | h
  | dqa
  | dqb
  | zsf3
  | zsf4
  | flag
  deriving DecidableEq, Repr

/-- LIGHT_PIPELINE: the stage order of the normal-colour instructions, the document's (44_lighting_color.md R181) or the
console's (R190). -/
inductive LightPipeline where
  | document
  | console
  deriving DecidableEq, Repr

/-- The names of the eighteen instructions (00_scope.md R3, 30_encoding.md R86). -/
inductive Operation where
  | rtps
  | nclip
  | op
  | dcps
  | intpl
  | mvmva
  | ncds
  | ncdt
  | nccs
  | sqr
  | dcpl
  | dcpt
  | avsz3
  | avsz4
  | rtpt
  | gpf
  | gpl
  | ncct
  deriving DecidableEq, Repr

/-- The nineteen named conditions of `FLAG` (10_state.md R45). -/
inductive FlagName where
  /-- `MAC<i>_POS`: a lane-`i` partial sum is above `2^43 - 1` -/
  | macPos (i : Lane)
  /-- `MAC<i>_NEG`: a lane-`i` partial sum is below `-2^43` -/
  | macNeg (i : Lane)
  /-- `IR<i>_SAT` -/
  | irSat (i : Lane)
  /-- `COLOR_R_SAT`, `COLOR_G_SAT`, `COLOR_B_SAT` -/
  | colorSat (i : Lane)
  /-- `SZ3_OTZ_SAT` -/
  | szOtzSat
  /-- `DIV_OVF` -/
  | divOvf
  /-- `MAC0_POS` -/
  | mac0Pos
  /-- `MAC0_NEG` -/
  | mac0Neg
  /-- `SX2_SAT` -/
  | sx2Sat
  /-- `SY2_SAT` -/
  | sy2Sat
  /-- `IR0_SAT` -/
  | ir0Sat
  deriving DecidableEq, Repr

/-- CMDFIELDS: the lowest bit of each field of a command word; the opcode is 6 bits wide, `mx`, `vx`, `tx` are 2, `sf` and
`lm` are 1 (30_encoding.md R81). -/
structure CmdLayout where
  opcode : Nat
  lm : Nat
  tx : Nat
  vx : Nat
  mx : Nat
  sf : Nat
  deriving DecidableEq, Repr

/-- FLAGMAP: where the word of `FLAG` holds each condition, and which bits of it are the error subset (10_state.md R45,
R46). -/
structure FlagMap where
  /-- the bit of a condition -/
  bit : FlagName → Nat
  /-- the bits whose OR is `FLAG[31]` -/
  errorMask : Word

/-- What a command word means: CMDFIELDS and OPCODES (00_scope.md R5). -/
structure Encoding where
  /-- CMDFIELDS (30_encoding.md R81) -/
  cmdFields : CmdLayout
  /-- OPCODES: the number of each instruction (30_encoding.md R86) -/
  opcodes : Operation → BitVec 6

/-- The configuration of the model (00_scope.md R5), over the type `σ` of its register file. -/
structure Config (σ : Type) extends Encoding where
  /-- FLAGMAP (10_state.md R45, R46). -/
  flagMap : FlagMap
  /-- REGMAP: the register behind each of the 64 indices (10_state.md R21). -/
  regMap : BitVec 6 → HostReg
  /-- RECIP: dividend `H` and divisor `SZ[3]` to the quotient, at most `0x1ffff` by its width, and whether `DIV_OVF` is
  raised (40_arith_core.md R111). -/
  recip : Half → Half → BitVec 17 × Bool
  /-- LIGHT_PIPELINE (44_lighting_color.md R181, R190). -/
  lightPipeline : LightPipeline
  /-- RTPS_DEPTH_CUE: whether the projection ends with the depth-cue step (42_projection.md R161 step 7). -/
  rtpsDepthCue : Bool
  /-- RESERVED_MATRIX: `none` refuses `mvmva` with `mx = 3`; `some f` runs it with the matrix `f` gives
  (43_mvmva.md R172). -/
  reservedMatrix : Option (σ → Mat3)
  /-- RESET_STATE: the register file right after reset (70_reset_and_hazards.md R240). -/
  resetState : σ

end Sys2Proof
end

