-- ==== Sys2Proof/Syntax.lean ====
section
/-! DEFINITION. The instruction set: one constructor per row of spec/opcode_table.json (spec/30_encoding.md R80, R86). -/

namespace Sys2Proof

/-- The eighteen instructions. `sf` selects the 12-bit shift of the lane sums, `lm` the lower clamp bound 0 of `IR1..3`
(30_encoding.md R84); `mvmva` alone has the three selectors (R85). -/
inductive Instr where
  | rtps (sf lm : Bool)
  | nclip
  | op (sf lm : Bool)
  | dcps (sf lm : Bool)
  | intpl (sf lm : Bool)
  | mvmva (sf lm : Bool) (mx : MatrixSel) (vx : VectorSel) (tx : TransSel)
  | ncds (sf lm : Bool)
  | ncdt (sf lm : Bool)
  | nccs (sf lm : Bool)
  | sqr (sf lm : Bool)
  | dcpl (sf lm : Bool)
  | dcpt (sf lm : Bool)
  | avsz3
  | avsz4
  | rtpt (sf lm : Bool)
  | gpf (sf lm : Bool)
  | gpl (sf lm : Bool)
  | ncct (sf lm : Bool)
  deriving DecidableEq, Repr

end Sys2Proof
end

