-- ==== Sys2Proof/WellFormed.lean ====
section
/-! DEFINITION. Which instructions are well formed: the one check is that `mvmva` does not name the reserved matrix
(spec/30_encoding.md R89). Every other field has a defined value for each bit pattern. -/

namespace Sys2Proof

/-- The matrix selector is one the document gives a meaning (30_encoding.md R89: "No other field has a reserved value"). -/
def MatrixSel.wellFormed : MatrixSel → Bool
  | .mat _ => true
  | .reserved => false

/-- An instruction with no reserved operand value (30_encoding.md R89). -/
def Instr.wellFormed : Instr → Bool
  | .rtps _ _ => true
  | .nclip => true
  | .op _ _ => true
  | .dcps _ _ => true
  | .intpl _ _ => true
  | .mvmva _ _ mx _ _ => mx.wellFormed
  | .ncds _ _ => true
  | .ncdt _ _ => true
  | .nccs _ _ => true
  | .sqr _ _ => true
  | .dcpl _ _ => true
  | .dcpt _ _ => true
  | .avsz3 => true
  | .avsz4 => true
  | .rtpt _ _ => true
  | .gpf _ _ => true
  | .gpl _ _ => true
  | .ncct _ _ => true

end Sys2Proof
end

