-- ==== Sys2Proof/Decode.lean ====
section
/-! DEFINITION. The command word: its fields, the decoder, total on every word, and the encoder, under any encoding and with
the spec's defaults of CMDFIELDS and OPCODES; and the default of REGMAP (spec/30_encoding.md R81 to R91, spec/10_state.md
R21). -/

namespace Sys2Proof

/-- The fields of a command word (30_encoding.md R82). -/
structure CmdFields where
  opcode : BitVec 6
  sf : Bool
  lm : Bool
  mx : BitVec 2
  vx : BitVec 2
  tx : BitVec 2
  deriving DecidableEq, Repr

/-- CMDFIELDS, the default: `opcode = cmd[5:0]`, `lm = cmd[10]`, `tx = cmd[14:13]`, `vx = cmd[16:15]`, `mx = cmd[18:17]`,
`sf = cmd[19]` (30_encoding.md R81). -/
def cmdFields : CmdLayout :=
  { opcode := 0, lm := 10, tx := 13, vx := 15, mx := 17, sf := 19 }

/-- Field extraction: the fields of a command word under a layout; the bits outside them are ignored (30_encoding.md R82,
R87). -/
def fieldsOfWith (l : CmdLayout) (cmd : Word) : CmdFields :=
  { opcode := cmd.extractLsb' l.opcode 6
    sf := cmd.getLsbD l.sf
    lm := cmd.getLsbD l.lm
    mx := cmd.extractLsb' l.mx 2
    vx := cmd.extractLsb' l.vx 2
    tx := cmd.extractLsb' l.tx 2 }

/-- The fields of a command word (30_encoding.md R82). -/
def fieldsOf (cmd : Word) : CmdFields := fieldsOfWith cmdFields cmd

/-- The command word of the given fields under a layout, ignored bits 0 (30_encoding.md R91). -/
def assembleWith (l : CmdLayout) (f : CmdFields) : Word :=
  (f.opcode.setWidth 32 <<< l.opcode) ||| ((BitVec.ofBool f.lm).setWidth 32 <<< l.lm) ||| (f.tx.setWidth 32 <<< l.tx)
    ||| (f.vx.setWidth 32 <<< l.vx) ||| (f.mx.setWidth 32 <<< l.mx) ||| ((BitVec.ofBool f.sf).setWidth 32 <<< l.sf)

/-- `cmd = opcode | lm<<10 | tx<<13 | vx<<15 | mx<<17 | sf<<19` (30_encoding.md R91). -/
def assemble (f : CmdFields) : Word := assembleWith cmdFields f

/-- `mx`: 0 `RT`, 1 `L`, 2 `LR`, 3 reserved (30_encoding.md R81, R85). -/
def matrixSel (b : BitVec 2) : MatrixSel :=
  match b.toNat with
  | 0 => .mat .rt
  | 1 => .mat .l
  | 2 => .mat .lr
  | _ => .reserved

/-- `vx`: 0, 1, 2 a stored vertex, 3 `(IR1, IR2, IR3)` (30_encoding.md R81, R85). -/
def vectorSel (b : BitVec 2) : VectorSel :=
  match b.toNat with
  | 0 => .vertex 0
  | 1 => .vertex 1
  | 2 => .vertex 2
  | _ => .ir

/-- `tx`: 0 `TR`, 1 `BK`, 2 `FC`, 3 none (30_encoding.md R81, R85). -/
def transSel (b : BitVec 2) : TransSel :=
  match b.toNat with
  | 0 => .vec .tr
  | 1 => .vec .bk
  | 2 => .vec .fc
  | _ => .zero

/-- The `mx` bits of a matrix selector (30_encoding.md R81). -/
def MatrixSel.bits : MatrixSel → BitVec 2
  | .mat .rt => 0
  | .mat .l => 1
  | .mat .lr => 2
  | .reserved => 3

/-- The `vx` bits of a vector selector (30_encoding.md R81). -/
def VectorSel.bits : VectorSel → BitVec 2
  | .vertex n => BitVec.ofNat 2 n.val
  | .ir => 3

/-- The `tx` bits of a translation selector (30_encoding.md R81). -/
def TransSel.bits : TransSel → BitVec 2
  | .vec .tr => 0
  | .vec .bk => 1
  | .vec .fc => 2
  | .zero => 3

/-- Why a word is no instruction: its opcode is not in the table of 30_encoding.md R86 (R88). -/
inductive DecodeError where
  | unrecognised (opcode : BitVec 6)
  deriving DecidableEq, Repr

/-- OPCODES, the default: the number of each instruction (30_encoding.md R86). -/
def opcodeOf : Operation → BitVec 6
  | .rtps => 0x01
  | .nclip => 0x06
  | .op => 0x0C
  | .dcps => 0x10
  | .intpl => 0x11
  | .mvmva => 0x12
  | .ncds => 0x13
  | .ncdt => 0x16
  | .nccs => 0x1B
  | .sqr => 0x28
  | .dcpl => 0x29
  | .dcpt => 0x2A
  | .avsz3 => 0x2D
  | .avsz4 => 0x2E
  | .rtpt => 0x30
  | .gpf => 0x3D
  | .gpl => 0x3E
  | .ncct => 0x3F

/-- What a command word means, by default (00_scope.md R5). -/
def encoding : Encoding := { cmdFields := cmdFields, opcodes := opcodeOf }

/-- The eighteen instruction names, in the order of the opcode table. -/
def Operation.all : List Operation :=
  [.rtps, .nclip, .op, .dcps, .intpl, .mvmva, .ncds, .ncdt, .nccs, .sqr, .dcpl, .dcpt, .avsz3, .avsz4, .rtpt, .gpf, .gpl,
    .ncct]

/-- The instruction a number names under an opcode map; any other value of the six bits names none (30_encoding.md R86,
R88). -/
def operationWith (opcodes : Operation → BitVec 6) (opcode : BitVec 6) : Option Operation :=
  Operation.all.find? fun o => opcodes o == opcode

/-- An instruction with the modifiers and selectors it reads (30_encoding.md R84 to R86). -/
def Operation.instr (o : Operation) (f : CmdFields) : Instr :=
  match o with
  | .rtps => .rtps f.sf f.lm
  | .nclip => .nclip
  | .op => .op f.sf f.lm
  | .dcps => .dcps f.sf f.lm
  | .intpl => .intpl f.sf f.lm
  | .mvmva => .mvmva f.sf f.lm (matrixSel f.mx) (vectorSel f.vx) (transSel f.tx)
  | .ncds => .ncds f.sf f.lm
  | .ncdt => .ncdt f.sf f.lm
  | .nccs => .nccs f.sf f.lm
  | .sqr => .sqr f.sf f.lm
  | .dcpl => .dcpl f.sf f.lm
  | .dcpt => .dcpt f.sf f.lm
  | .avsz3 => .avsz3
  | .avsz4 => .avsz4
  | .rtpt => .rtpt f.sf f.lm
  | .gpf => .gpf f.sf f.lm
  | .gpl => .gpl f.sf f.lm
  | .ncct => .ncct f.sf f.lm

/-- The instruction of a command's fields (30_encoding.md R86, R88). -/
def decodeFieldsWith (opcodes : Operation → BitVec 6) (f : CmdFields) : Except DecodeError Instr :=
  match operationWith opcodes f.opcode with
  | some o => .ok (o.instr f)
  | none => .error (.unrecognised f.opcode)

/-- The decoder under an encoding: total on every 32-bit command word (30_encoding.md R83, R90). -/
def decodeWith (e : Encoding) (cmd : Word) : Except DecodeError Instr :=
  decodeFieldsWith e.opcodes (fieldsOfWith e.cmdFields cmd)

/-- The decoder, with the default encoding. -/
def decode (cmd : Word) : Except DecodeError Instr := decodeWith encoding cmd

/-- The fields of an instruction that reads `sf` and `lm` only. -/
def modFields (opcode : BitVec 6) (sf lm : Bool) : CmdFields :=
  { opcode := opcode, sf := sf, lm := lm, mx := 0, vx := 0, tx := 0 }

/-- OPCODES, the other way: the fields of an instruction; a field it does not read is 0 (30_encoding.md R86, R91). -/
def Instr.fieldsWith (opcodes : Operation → BitVec 6) : Instr → CmdFields
  | .rtps sf lm => modFields (opcodes .rtps) sf lm
  | .nclip => modFields (opcodes .nclip) false false
  | .op sf lm => modFields (opcodes .op) sf lm
  | .dcps sf lm => modFields (opcodes .dcps) sf lm
  | .intpl sf lm => modFields (opcodes .intpl) sf lm
  | .mvmva sf lm mx vx tx => { opcode := opcodes .mvmva, sf := sf, lm := lm, mx := mx.bits, vx := vx.bits, tx := tx.bits }
  | .ncds sf lm => modFields (opcodes .ncds) sf lm
  | .ncdt sf lm => modFields (opcodes .ncdt) sf lm
  | .nccs sf lm => modFields (opcodes .nccs) sf lm
  | .sqr sf lm => modFields (opcodes .sqr) sf lm
  | .dcpl sf lm => modFields (opcodes .dcpl) sf lm
  | .dcpt sf lm => modFields (opcodes .dcpt) sf lm
  | .avsz3 => modFields (opcodes .avsz3) false false
  | .avsz4 => modFields (opcodes .avsz4) false false
  | .rtpt sf lm => modFields (opcodes .rtpt) sf lm
  | .gpf sf lm => modFields (opcodes .gpf) sf lm
  | .gpl sf lm => modFields (opcodes .gpl) sf lm
  | .ncct sf lm => modFields (opcodes .ncct) sf lm

/-- The fields of an instruction, with the default opcodes. -/
def Instr.fields (i : Instr) : CmdFields := i.fieldsWith opcodeOf

/-- The encoder under an encoding: the command word of an instruction, ignored bits 0 (30_encoding.md R91). -/
def encodeWith (e : Encoding) (i : Instr) : Word := assembleWith e.cmdFields (i.fieldsWith e.opcodes)

/-- The encoder, with the default encoding. -/
def encode (i : Instr) : Word := encodeWith encoding i

/-- The command word whose low `nbits` bits are those of `w`, every further bit 0. -/
def tableWord (nbits w : Nat) : Word :=
  BitVec.ofNat 32 (w % 2 ^ nbits)

/-- The instruction the decoder reads from a word numbered as spec/opcode_table.json numbers it (30_encoding.md R80: one
32-bit word). -/
def decodeTableWord (nbits w : Nat) : Option Instr :=
  match decode (tableWord nbits w) with
  | .ok i => some i
  | .error _ => none

/-- REGMAP, the default: the register behind each of the 64 indices (10_state.md R21). -/
def regMap (idx : BitVec 6) : HostReg :=
  match idx.toNat with
  | 0 => .vxy 0
  | 1 => .vz 0
  | 2 => .vxy 1
  | 3 => .vz 1
  | 4 => .vxy 2
  | 5 => .vz 2
  | 6 => .rgbc
  | 7 => .otz
  | 8 => .ir0
  | 9 => .ir .one
  | 10 => .ir .two
  | 11 => .ir .three
  | 12 => .sxy 0
  | 13 => .sxy 1
  | 14 => .sxy 2
  | 15 => .sxy3
  | 16 => .sz 0
  | 17 => .sz 1
  | 18 => .sz 2
  | 19 => .sz 3
  | 20 => .rgb 0
  | 21 => .rgb 1
  | 22 => .rgb 2
  | 23 => .res1
  | 24 => .mac0
  | 25 => .mac .one
  | 26 => .mac .two
  | 27 => .mac .three
  | 28 => .irgb
  | 29 => .orgb
  | 30 => .lzcs
  | 31 => .lzcr
  | 32 => .matPair .rt 0
  | 33 => .matPair .rt 1
  | 34 => .matPair .rt 2
  | 35 => .matPair .rt 3
  | 36 => .mat33 .rt
  | 37 => .trans .tr .one
  | 38 => .trans .tr .two
  | 39 => .trans .tr .three
  | 40 => .matPair .l 0
  | 41 => .matPair .l 1
  | 42 => .matPair .l 2
  | 43 => .matPair .l 3
  | 44 => .mat33 .l
  | 45 => .trans .bk .one
  | 46 => .trans .bk .two
  | 47 => .trans .bk .three
  | 48 => .matPair .lr 0
  | 49 => .matPair .lr 1
  | 50 => .matPair .lr 2
  | 51 => .matPair .lr 3
  | 52 => .mat33 .lr
  | 53 => .trans .fc .one
  | 54 => .trans .fc .two
  | 55 => .trans .fc .three
  | 56 => .ofx
  | 57 => .ofy
  | 58 => .h
  | 59 => .dqa
  | 60 => .dqb
  | 61 => .zsf3
  | 62 => .zsf4
  | _ => .flag

end Sys2Proof
end

