-- ==== Sys2Proof/Machine/State.lean ====
section
/-! DEFINITION. The state of the core, as plain data: the register file of spec/10_state.md R20, and the host interface of
spec/00_scope.md R6 (the transactions issued and not yet taken, and what the last one returned). Reset is
spec/70_reset_and_hazards.md R240. -/

namespace Sys2Proof.Machine

open Sys2Proof

/-- The registers that no instruction writes: only the host's `WRITE` changes them (10_state.md R22, R23, R29, R32 to R42). -/
structure InputRegs where
  /-- `V[0]`, three s16 (10_state.md R22) -/
  v0 : Vec3 Half
  /-- `V[1]` (R22) -/
  v1 : Vec3 Half
  /-- `V[2]` (R22) -/
  v2 : Vec3 Half
  /-- the live colour `RGBC`, four u8 (R23) -/
  rgbc : Color
  /-- `RES1`, u32, no hardware effect (R29) -/
  res1 : Word
  /-- `LZCS`, s32 (R32) -/
  lzcs : Word
  /-- rotation matrix `RT`, nine s16 (R33) -/
  rt : Mat3
  /-- translation vector `TR`, three s32 (R34) -/
  tr : Vec3 Word
  /-- light matrix `L` (R35) -/
  l : Mat3
  /-- background colour `BK`, three s32 (R36) -/
  bk : Vec3 Word
  /-- light-colour matrix `LR` (R37) -/
  lr : Mat3
  /-- far colour `FC`, three s32 (R38) -/
  fc : Vec3 Word
  /-- screen offset `OFX`, s32 (R39) -/
  ofx : Word
  /-- screen offset `OFY`, s32 (R39) -/
  ofy : Word
  /-- projection plane distance `H`, u16 (R40) -/
  h : Half
  /-- depth-cue coefficient `DQA`, s16 (R41) -/
  dqa : Half
  /-- depth-cue coefficient `DQB`, s32 (R41) -/
  dqb : Word
  /-- average-Z scale factor `ZSF3`, s16 (R42) -/
  zsf3 : Half
  /-- average-Z scale factor `ZSF4`, s16 (R42) -/
  zsf4 : Half
  deriving DecidableEq, Repr

/-- The register file: "the whole state of the core" (10_state.md R20). The views `IRGB`, `ORGB`, `LZCR`, `SXY3` and the
bits 31 and 11:0 of `FLAG` are not stored. -/
structure RegFile extends InputRegs where
  /-- `OTZ`, u16 (R24) -/
  otz : Half
  /-- `IR0`, s16 (R25) -/
  ir0 : Half
  /-- `IR1`, `IR2`, `IR3`, s16 (R25) -/
  ir : Vec3 Half
  /-- `SXY[0]`, the oldest screen position (R26) -/
  sxy0 : ScreenXY
  /-- `SXY[1]` (R26) -/
  sxy1 : ScreenXY
  /-- `SXY[2]`, the newest; `SXY3` is a second name of it (R26) -/
  sxy2 : ScreenXY
  /-- `SZ[0]`, the oldest depth, u16 (R27) -/
  sz0 : Half
  /-- `SZ[1]` (R27) -/
  sz1 : Half
  /-- `SZ[2]` (R27) -/
  sz2 : Half
  /-- `SZ[3]`, the newest (R27) -/
  sz3 : Half
  /-- `RGB[0]`, the oldest colour (R28) -/
  rgb0 : Color
  /-- `RGB[1]` (R28) -/
  rgb1 : Color
  /-- `RGB[2]`, the newest (R28) -/
  rgb2 : Color
  /-- `MAC0`, s32 (R30) -/
  mac0 : Word
  /-- `MAC1`, `MAC2`, `MAC3`, s32 (R30) -/
  mac : Vec3 Word
  /-- the stored part of `FLAG`: one bit for each named condition, in the order of `storedBit` (Machine/Flags.lean), which the
  default FLAGMAP keeps: bit `k` here is then `FLAG[k + 12]` (R43, R45) -/
  flag : BitVec 19
  deriving DecidableEq, Repr

/-- The host's three transactions (00_scope.md R6). The index is a 6-bit value, so that an index out of range cannot be
expressed (20_memory.md R67, 60_exceptions.md R222). -/
inductive Transaction where
  /-- `READ(idx)` -/
  | read (idx : BitVec 6)
  /-- `WRITE(idx, w)` -/
  | write (idx : BitVec 6) (w : Word)
  /-- `COMMAND(cmd)` -/
  | command (cmd : Word)
  deriving DecidableEq, Repr

/-- What a transaction returns to the host (00_scope.md R6). -/
inductive Response where
  /-- no transaction has completed yet -/
  | nothing
  /-- the word a `READ` returned -/
  | word (w : Word)
  /-- a `WRITE` completed; it returns nothing (41_register_access.md R155) -/
  | written
  /-- the 1-bit result of a `COMMAND` (30_encoding.md R83) -/
  | recognised (b : Bool)
  deriving DecidableEq, Repr

/-- The machine: the register file and the host interface. -/
structure State where
  /-- the register file (10_state.md R20) -/
  regs : RegFile
  /-- the host's transactions not yet taken, oldest first (30_encoding.md R91: a script); the model's own field -/
  pending : List Transaction
  /-- what the last transaction returned; the model's own field -/
  response : Response
  deriving DecidableEq, Repr

/-- The reasons the machine stops with a fault: none. "The core raises no exception. No transaction can fault, trap, abort
or be partially executed" (60_exceptions.md R220). Safe: nothing raises one. -/
inductive Fault where
  deriving DecidableEq, Repr

/-- The reasons the model has no meaning for an instruction. -/
inductive Refusal where
  /-- Raised by an arm of `exec` for an instruction with no meaning yet; no arm raises it now. Safe. -/
  | notModelled (mnemonic : String)
  /-- Raised by `mvmva` with `mx = 3` under the default configuration: "a model refuses a `COMMAND` whose opcode is `0x12`
  and whose `mx` is 3" (43_mvmva.md R172). Safe: the model stops where the hardware goes on. -/
  | reservedMatrix
  deriving DecidableEq, Repr

/-- The three-element vector of zeros. -/
def zeroVec (n : Nat) : Vec3 (BitVec n) := { x := 0, y := 0, z := 0 }

/-- The matrix of zeros. -/
def zeroMat : Mat3 := { row1 := zeroVec 16, row2 := zeroVec 16, row3 := zeroVec 16 }

/-- RESET_STATE, the default: zero in every field (70_reset_and_hazards.md R240; DESIGN CHOICE, log 1). -/
def RegFile.reset : RegFile :=
  { v0 := zeroVec 16, v1 := zeroVec 16, v2 := zeroVec 16
    rgbc := { r := 0, g := 0, b := 0, code := 0 }
    res1 := 0, lzcs := 0
    rt := zeroMat, tr := zeroVec 32, l := zeroMat, bk := zeroVec 32, lr := zeroMat, fc := zeroVec 32
    ofx := 0, ofy := 0, h := 0, dqa := 0, dqb := 0, zsf3 := 0, zsf4 := 0
    otz := 0, ir0 := 0, ir := zeroVec 16
    sxy0 := { x := 0, y := 0 }, sxy1 := { x := 0, y := 0 }, sxy2 := { x := 0, y := 0 }
    sz0 := 0, sz1 := 0, sz2 := 0, sz3 := 0
    rgb0 := { r := 0, g := 0, b := 0, code := 0 }
    rgb1 := { r := 0, g := 0, b := 0, code := 0 }
    rgb2 := { r := 0, g := 0, b := 0, code := 0 }
    mac0 := 0, mac := zeroVec 32, flag := 0 }

/-- The machine with a register file, no transaction issued yet (the interface fields are a DESIGN CHOICE, log 2). -/
def State.initial (r : RegFile) : State := { regs := r, pending := [], response := .nothing }

/-- The machine right after reset: the register file at RESET_STATE, no transaction issued (70_reset_and_hazards.md R240). -/
def State.reset : State := State.initial RegFile.reset

/-- The machine with another register file and the same host interface. -/
def State.withRegs (s : State) (r : RegFile) : State := { s with regs := r }

end Sys2Proof.Machine
end

