-- ==== Sys2Proof/Machine/Arith.lean ====
section
/-! DEFINITION. Integer arithmetic of the core: conversions (spec/00_scope.md R9), the clamp (spec/40_arith_core.md R105),
the leading-zero count (R110) and the reciprocal unit (R111, R112). Every value is a mathematical integer (00_scope.md R8);
a stored register is read as one by `toInt` (signed) or `toNat` (unsigned). -/

namespace Sys2Proof.Machine

open Sys2Proof

/-- `sext_n(v)`: the low `n` bits of `v` read as a signed integer (00_scope.md R9). -/
def sext (n : Nat) (v : Int) : Int :=
  let u := v % ((2 ^ n : Nat) : Int)
  if u ≥ ((2 ^ (n - 1) : Nat) : Int) then u - ((2 ^ n : Nat) : Int) else u

/-- `asr(v, n) = floor(v / 2^n)`, rounding toward minus infinity (00_scope.md R9, 40_arith_core.md R120 (c)). -/
def asr (v : Int) (n : Nat) : Int := v / ((2 ^ n : Nat) : Int)

/-- `v << n = v * 2^n` on unbounded integers (00_scope.md R9). -/
def shl (v : Int) (n : Nat) : Int := v * ((2 ^ n : Nat) : Int)

/-- `trunc32(v)`, as the 32-bit pattern that is stored (00_scope.md R9). -/
def trunc32 (v : Int) : Word := BitVec.ofInt 32 v

/-- The value of an unsigned register field. -/
def unsignedVal {n : Nat} (x : BitVec n) : Int := (x.toNat : Int)

/-- The values of three signed fields. -/
def signedVec {n : Nat} (v : Vec3 (BitVec n)) : Vec3 Int := v.map BitVec.toInt

/-- The value part of `clip(v, max, min, f)` (40_arith_core.md R105); its flag part is `clipFlags` (Machine/Flags.lean). -/
def clip (v max min : Int) : Int :=
  if v > max then max else if v < min then min else v

/-- Whether `clip(v, max, min, f)` clamps, that is, sets its flag (40_arith_core.md R105). -/
def clips (v max min : Int) : Bool := decide (v > max) || decide (v < min)

/-- The number of consecutive 0 bits of `n` starting at bit `w - 1` and going down. -/
def leadingZeros : Nat → Nat → Nat
  | 0, _ => 0
  | w + 1, n => if n.testBit w then 0 else 1 + leadingZeros w n

/-- `clz32(n)`, `n` a 32-bit pattern (40_arith_core.md R110). -/
def clz32 (n : Word) : Nat := leadingZeros 32 n.toNat

/-- `clz16(n) = clz32(zext_16(n)) - 16` (40_arith_core.md R110). -/
def clz16 (n : Half) : Nat := clz32 (n.setWidth 32) - 16

/-- `lzcount(n)`: leading zeros of a non-negative `n`, leading ones of a negative one (40_arith_core.md R110). -/
def lzcount (n : Word) : Nat :=
  if n.toInt ≥ 0 then clz32 n else clz32 (~~~n)

/-- The reciprocal table, by its generating formula
`UNR[i] = max(0, floor((floor(0x40000 / (i + 0x100)) + 1) / 2) - 0x101)` for `i` in 0..0x100 (40_arith_core.md R112;
natural subtraction stops at 0). -/
def unr (i : Nat) : Nat := (0x40000 / (i + 0x100) + 1) / 2 - 0x101

/-- `divide(h, sz3)` once the entry test has passed: normalise, look up, refine twice, multiply, clamp without a flag
(40_arith_core.md R111). -/
def reciprocalQuotient (h sz3 : Half) : Int :=
  let z := clz16 sz3
  let n := shl (unsignedVal h) z
  let d := shl (unsignedVal sz3) z
  let u : Int := (unr (asr (d - 0x7fc0) 7).toNat : Int) + 0x101
  let d2 := asr (0x2000080 - d * u) 8
  let d3 := asr (0x80 + d2 * u) 8
  let q := asr (n * d3 + 0x8000) 16
  if q > 0x1ffff then 0x1ffff else q

/-- `divide(h, sz3)`, the default RECIP: the quotient and whether `DIV_OVF` is raised. The entry test `h >= 2 * sz3` is true
for every `h` when `sz3 = 0` (40_arith_core.md R111). The quotient is in `[0, 0x1ffff]`, so 17 bits hold it. -/
def divide (h sz3 : Half) : BitVec 17 × Bool :=
  if h.toNat ≥ 2 * sz3.toNat then (0x1ffff, true)
  else (BitVec.ofInt 17 (reciprocalQuotient h sz3), false)

end Sys2Proof.Machine
end

