-- ==== Sys2Proof/Machine/Flags.lean ====
section
/-! DEFINITION. The `FLAG` register (spec/10_state.md R43 to R47): the stored conditions, by name, the word the host sees
under a FLAGMAP, the error bit, and every flag computation the primitives make (spec/40_arith_core.md R101 to R105, R111). -/

namespace Sys2Proof.Machine

open Sys2Proof

/-- The nineteen conditions, from the most significant bit of the default FLAGMAP down (10_state.md R45). -/
def conditions : List FlagName :=
  [.macPos .one, .macPos .two, .macPos .three, .macNeg .one, .macNeg .two, .macNeg .three, .irSat .one, .irSat .two,
    .irSat .three, .colorSat .one, .colorSat .two, .colorSat .three, .szOtzSat, .divOvf, .mac0Pos, .mac0Neg, .sx2Sat, .sy2Sat,
    .ir0Sat]

/-- The bit of the register file's `flag` that stores a condition, the model's own numbering, whatever FLAGMAP is. -/
def storedBit : FlagName → Nat
  | .macPos .one => 18
  | .macPos .two => 17
  | .macPos .three => 16
  | .macNeg .one => 15
  | .macNeg .two => 14
  | .macNeg .three => 13
  | .irSat .one => 12
  | .irSat .two => 11
  | .irSat .three => 10
  | .colorSat .one => 9
  | .colorSat .two => 8
  | .colorSat .three => 7
  | .szOtzSat => 6
  | .divOvf => 5
  | .mac0Pos => 4
  | .mac0Neg => 3
  | .sx2Sat => 2
  | .sy2Sat => 1
  | .ir0Sat => 0

/-- FLAGMAP, the default: the bit of `FLAG` that holds a condition (10_state.md R45). -/
def flagBit : FlagName → Nat
  | .macPos .one => 30
  | .macPos .two => 29
  | .macPos .three => 28
  | .macNeg .one => 27
  | .macNeg .two => 26
  | .macNeg .three => 25
  | .irSat .one => 24
  | .irSat .two => 23
  | .irSat .three => 22
  | .colorSat .one => 21
  | .colorSat .two => 20
  | .colorSat .three => 19
  | .szOtzSat => 18
  | .divOvf => 17
  | .mac0Pos => 16
  | .mac0Neg => 15
  | .sx2Sat => 14
  | .sy2Sat => 13
  | .ir0Sat => 12

/-- FLAGMAP, the default: the error subset, bits 30..23 and 18..13 (10_state.md R46). -/
def errorMask : Word := 0x7F87E000

/-- FLAGMAP, the default (10_state.md R45, R46). -/
def flagMap : FlagMap := { bit := flagBit, errorMask := errorMask }

/-- The stored conditions with one of them set. -/
def flagMask (f : FlagName) : BitVec 19 := 1#19 <<< storedBit f

/-- `setflag(f)` under a condition, as the set of bits it raises. -/
def flagIf (c : Bool) (f : FlagName) : BitVec 19 := if c then flagMask f else 0

/-- `setflag` of a set of conditions: flags only accumulate (00_scope.md R11). -/
def raise (m : BitVec 19) (r : RegFile) : RegFile := { r with flag := r.flag ||| m }

/-- `FLAG <- 0`: clears the 19 stored bits (10_state.md R43, 30_encoding.md R83). -/
def clearFlag (r : RegFile) : RegFile := { r with flag := 0 }

/-- The condition bits of the word of `FLAG`, each at its place under a FLAGMAP, all else 0 (10_state.md R43, R45). -/
def storedFlagWordWith (m : FlagMap) (flag : BitVec 19) : Word :=
  conditions.foldr (fun f w => (BitVec.ofBool (flag.getLsbD (storedBit f))).setWidth 32 <<< m.bit f ||| w) 0

/-- The error bit: the OR of the error subset, "recomputed, never stored directly" (10_state.md R46). -/
def errorBitWith (m : FlagMap) (flag : BitVec 19) : Bool := (storedFlagWordWith m flag &&& m.errorMask) != 0

/-- The word a `READ` of `FLAG` returns: `e << 31`, and the condition bits (41_register_access.md R156). -/
def flagWordWith (m : FlagMap) (flag : BitVec 19) : Word :=
  ((BitVec.ofBool (errorBitWith m flag)).setWidth 32 <<< 31) ||| storedFlagWordWith m flag

/-- The conditions a `WRITE` of `w` to `FLAG` stores; the error bit and the bits that hold no condition are ignored
(41_register_access.md R156). -/
def loadFlagsWith (m : FlagMap) (w : Word) : BitVec 19 :=
  conditions.foldr (fun f a => flagIf (w.getLsbD (m.bit f)) f ||| a) 0

/-- `FLAG[30:12]` at its place in the word, with the default FLAGMAP. -/
def storedFlagWord (flag : BitVec 19) : Word := storedFlagWordWith flagMap flag

/-- `FLAG[31]`, with the default FLAGMAP. -/
def errorBit (flag : BitVec 19) : Bool := errorBitWith flagMap flag

/-- `e << 31 | FLAG[30:12] << 12`, with the default FLAGMAP (41_register_access.md R156). -/
def flagWord (flag : BitVec 19) : Word := flagWordWith flagMap flag

/-- `w[30:12]`, with the default FLAGMAP (41_register_access.md R156). -/
def loadFlags (w : Word) : BitVec 19 := loadFlagsWith flagMap w

/-- The flags of `checkOverflow(v, bits, pos, neg)` (40_arith_core.md R102). -/
def overflowFlags (bits : Nat) (pos neg : FlagName) (v : Int) : BitVec 19 :=
  flagIf (decide (v > ((2 ^ (bits - 1) : Nat) : Int) - 1)) pos ||| flagIf (decide (v < -((2 ^ (bits - 1) : Nat) : Int))) neg

/-- The flags of `chk44(i, v)` (40_arith_core.md R101). -/
def chk44Flags (i : Lane) (v : Int) : BitVec 19 := overflowFlags 44 (.macPos i) (.macNeg i) v

/-- The value `chk44` returns: `sext_44(v)` (40_arith_core.md R101). -/
def wrap44 (v : Int) : Int := sext 44 v

/-- The flags of `F(v)`, the check of every `MAC0` value (40_arith_core.md R103, 90_conflicts.md C9). -/
def mac0Flags (v : Int) : BitVec 19 := overflowFlags 32 .mac0Pos .mac0Neg v

/-- The flag of `clip(v, max, min, f)`: set exactly when the value is clamped (40_arith_core.md R105). -/
def clipFlags (v max min : Int) (f : FlagName) : BitVec 19 := flagIf (clips v max min) f

end Sys2Proof.Machine
end

