-- ==== Sys2Proof/Machine/Operands.lean ====
section
/-! DEFINITION. The operand forms: vertices, matrices, translation vectors, FIFO slots, and the three selectors of `mvmva`
(spec/30_encoding.md R84, R85; spec/10_state.md R22 to R38). -/

namespace Sys2Proof.Machine

open Sys2Proof

/-- `V[n]` (10_state.md R22). -/
def vertex (n : Fin 3) (r : RegFile) : Vec3 Half :=
  match n with
  | 0 => r.v0
  | 1 => r.v1
  | 2 => r.v2

/-- `V[n] <- v`, a host write (41_register_access.md R131, R132). -/
def setVertex (n : Fin 3) (v : Vec3 Half) (r : RegFile) : RegFile :=
  match n with
  | 0 => { r with v0 := v }
  | 1 => { r with v1 := v }
  | 2 => { r with v2 := v }

/-- The matrix of a name (10_state.md R33, R35, R37). -/
def matrix (m : MatrixName) (r : RegFile) : Mat3 :=
  match m with
  | .rt => r.rt
  | .l => r.l
  | .lr => r.lr

/-- Replace a matrix, a host write (41_register_access.md R147). -/
def setMatrix (m : MatrixName) (a : Mat3) (r : RegFile) : RegFile :=
  match m with
  | .rt => { r with rt := a }
  | .l => { r with l := a }
  | .lr => { r with lr := a }

/-- The translation vector of a name (10_state.md R34, R36, R38). -/
def translation (t : TransName) (r : RegFile) : Vec3 Word :=
  match t with
  | .tr => r.tr
  | .bk => r.bk
  | .fc => r.fc

/-- Replace a translation vector, a host write (41_register_access.md R148). -/
def setTrans (t : TransName) (v : Vec3 Word) (r : RegFile) : RegFile :=
  match t with
  | .tr => { r with tr := v }
  | .bk => { r with bk := v }
  | .fc => { r with fc := v }

/-- `SXY[k]` (10_state.md R26). -/
def sxy (k : Fin 3) (r : RegFile) : ScreenXY :=
  match k with
  | 0 => r.sxy0
  | 1 => r.sxy1
  | 2 => r.sxy2

/-- Write one slot of the SXY FIFO without shifting (41_register_access.md R138). -/
def setSxy (k : Fin 3) (p : ScreenXY) (r : RegFile) : RegFile :=
  match k with
  | 0 => { r with sxy0 := p }
  | 1 => { r with sxy1 := p }
  | 2 => { r with sxy2 := p }

/-- `SZ[k]` (10_state.md R27). -/
def sz (k : Fin 4) (r : RegFile) : Half :=
  match k with
  | 0 => r.sz0
  | 1 => r.sz1
  | 2 => r.sz2
  | 3 => r.sz3

/-- Write one slot of the SZ FIFO without shifting (41_register_access.md R140). -/
def setSz (k : Fin 4) (z : Half) (r : RegFile) : RegFile :=
  match k with
  | 0 => { r with sz0 := z }
  | 1 => { r with sz1 := z }
  | 2 => { r with sz2 := z }
  | 3 => { r with sz3 := z }

/-- `RGB[k]` (10_state.md R28). -/
def rgb (k : Fin 3) (r : RegFile) : Color :=
  match k with
  | 0 => r.rgb0
  | 1 => r.rgb1
  | 2 => r.rgb2

/-- Write one slot of the RGB FIFO without shifting (41_register_access.md R141). -/
def setRgb (k : Fin 3) (c : Color) (r : RegFile) : RegFile :=
  match k with
  | 0 => { r with rgb0 := c }
  | 1 => { r with rgb1 := c }
  | 2 => { r with rgb2 := c }

/-- The values of `V[n]` as a vector operand. -/
def vertexVec (n : Fin 3) (r : RegFile) : Vec3 Int := signedVec (vertex n r)

/-- The values of a translation vector. -/
def transVec (t : TransName) (r : RegFile) : Vec3 Int := signedVec (translation t r)

/-- `(IR1, IR2, IR3)` as a vector operand. -/
def irVec (r : RegFile) : Vec3 Int := signedVec r.ir

/-- The vector operand `vx` selects (30_encoding.md R85). -/
def vectorOf (vx : VectorSel) (r : RegFile) : Vec3 Int :=
  match vx with
  | .vertex n => vertexVec n r
  | .ir => irVec r

/-- The translation operand `tx` selects; `tx = 3` adds nothing (30_encoding.md R85). -/
def transOf (tx : TransSel) (r : RegFile) : Vec3 Int :=
  match tx with
  | .vec t => transVec t r
  | .zero => { x := 0, y := 0, z := 0 }

/-- The matrix operand `mx` selects, under a configuration: the reserved value gives one only if the configuration supplies
it (30_encoding.md R85, 43_mvmva.md R172). -/
def matrixOf (c : Config RegFile) (mx : MatrixSel) (r : RegFile) : Option Mat3 :=
  match mx with
  | .mat m => some (matrix m r)
  | .reserved => c.reservedMatrix.map (fun f => f r)

/-- The colour components of `RGBC` as lane operands, `c << 4` (44_lighting_color.md R180, R181). -/
def colorScale (c : Color) : Vec3 Int :=
  { x := shl (unsignedVal c.r) 4, y := shl (unsignedVal c.g) 4, z := shl (unsignedVal c.b) 4 }

end Sys2Proof.Machine
end

