-- ==== Sys2Proof/Machine/Params.lean ====
section
/-! DEFINITION. The configuration values of the model, the spec's defaults (spec/00_scope.md R5). -/

namespace Sys2Proof.Machine

open Sys2Proof

/-- The configuration: CMDFIELDS, OPCODES, FLAGMAP and REGMAP the spec's tables (30_encoding.md R81, R86; 10_state.md R45,
R46, R21), RECIP the algorithm of 40_arith_core.md R111, LIGHT_PIPELINE the document's order (44_lighting_color.md R181),
RTPS_DEPTH_CUE true (42_projection.md R161), `mvmva` with `mx = 3` refused (43_mvmva.md R172), RESET_STATE zero
(70_reset_and_hazards.md R240). -/
def params : Config RegFile :=
  { toEncoding := encoding
    flagMap := flagMap
    regMap := regMap
    recip := divide
    lightPipeline := .document
    rtpsDepthCue := true
    reservedMatrix := none
    resetState := RegFile.reset }

end Sys2Proof.Machine
end

