-- ==== Sys2Proof/Machine/Ops.lean ====
section
/-! DEFINITION. The shared primitives of the arithmetic core, as functions on the register file (spec/40_arith_core.md R100
to R121). A primitive writes only the fields its rule names and raises flags; none clears one (R100). The core takes no
exception and has none to return from (spec/60_exceptions.md R220, R227), so no such operation stands here. -/

namespace Sys2Proof.Machine

open Sys2Proof

/-- The shift `sf` selects: 12 or 0 (00_scope.md R13). -/
def sfShift (sf : Bool) : Nat := if sf then 12 else 0

/-- `A(i, v)`, the value: the wrapped sum shifted by `12 * sf` and truncated to 32 bits (40_arith_core.md R106). -/
def accumulate (sf : Bool) (v : Int) : Word := trunc32 (asr (wrap44 v) (sfShift sf))

/-- `setMac(i, v)` for lanes 1..3 (40_arith_core.md R106). -/
def setMac (sf : Bool) (i : Lane) (v : Int) (r : RegFile) : RegFile :=
  { raise (chk44Flags i v) r with mac := r.mac.set i (accumulate sf v) }

/-- The lower clamp bound `lm` selects for `IR1..3` (40_arith_core.md R109). -/
def irMin (lm : Bool) : Int := if lm then 0 else -0x8000

/-- `setIr(i, lmv)`: clamp the stored 32-bit `MAC<i>` (40_arith_core.md R109). -/
def setIr (lmv : Bool) (i : Lane) (r : RegFile) : RegFile :=
  let m := (r.mac.get i).toInt
  { raise (clipFlags m 0x7fff (irMin lmv) (.irSat i)) r with
    ir := r.ir.set i (BitVec.ofInt 16 (clip m 0x7fff (irMin lmv))) }

/-- `setMacAndIr(i, v, lmv)` (40_arith_core.md R108). -/
def setMacAndIr (sf lmv : Bool) (i : Lane) (v : Int) (r : RegFile) : RegFile :=
  setIr lmv i (setMac sf i v r)

/-- `for i in 1, 2, 3: setMacAndIr(i, v_i, lmv)`, the three values read before (40_arith_core.md R100, R121). -/
def setLanes (sf lmv : Bool) (v : Vec3 Int) (r : RegFile) : RegFile :=
  setMacAndIr sf lmv .three v.z (setMacAndIr sf lmv .two v.y (setMacAndIr sf lmv .one v.x r))

/-- `setMac(0, v)`: the 32-bit check, no shift (40_arith_core.md R114). -/
def setMac0 (v : Int) (r : RegFile) : RegFile :=
  { raise (mac0Flags v) r with mac0 := trunc32 v }

/-- `lanesum(i, t, p1, p2, p3)`, the value: each partial sum wrapped to 44 bits (40_arith_core.md R107). -/
def laneSum (t p1 p2 p3 : Int) : Int :=
  wrap44 (wrap44 (wrap44 (t + p1) + p2) + p3)

/-- `lanesum(i, t, p1, p2, p3)`, the flags: each partial sum checked on the wrapped one before it (40_arith_core.md R107). -/
def laneSumFlags (i : Lane) (t p1 p2 p3 : Int) : BitVec 19 :=
  chk44Flags i (t + p1) ||| chk44Flags i (wrap44 (t + p1) + p2) ||| chk44Flags i (wrap44 (wrap44 (t + p1) + p2) + p3)

/-- The three products of a matrix row with a vector (40_arith_core.md R107, R120 (a)). -/
def rowProducts (row : Vec3 Half) (v : Vec3 Int) : Vec3 Int :=
  { x := row.x.toInt * v.x, y := row.y.toInt * v.y, z := row.z.toInt * v.z }

/-- The lane sum `s_i` of `mvma(M, v, T, lmv)`: the translation enters shifted left by 12 (40_arith_core.md R107). -/
def mvmaSum (m : Mat3) (v t : Vec3 Int) (i : Lane) : Int :=
  let p := rowProducts (m.row i) v
  laneSum (shl (t.get i) 12) p.x p.y p.z

/-- The flags the lane sum `s_i` raises (40_arith_core.md R107). -/
def mvmaSumFlags (m : Mat3) (v t : Vec3 Int) (i : Lane) : BitVec 19 :=
  let p := rowProducts (m.row i) v
  laneSumFlags i (shl (t.get i) 12) p.x p.y p.z

/-- `mvma(M, v, T, lmv)`, the matrix-vector multiply-add engine; its operands are values, read before any lane is written
(40_arith_core.md R107, R121). -/
def mvma (sf lmv : Bool) (m : Mat3) (v t : Vec3 Int) (r : RegFile) : RegFile :=
  setLanes sf lmv { x := mvmaSum m v t .one, y := mvmaSum m v t .two, z := mvmaSum m v t .three }
    (raise (mvmaSumFlags m v t .one ||| mvmaSumFlags m v t .two ||| mvmaSumFlags m v t .three) r)

/-- `setOtz()`: from the stored 32-bit `MAC0` (40_arith_core.md R115). -/
def setOtz (r : RegFile) : RegFile :=
  let z := asr r.mac0.toInt 12
  { raise (clipFlags z 0xffff 0 .szOtzSat) r with otz := BitVec.ofInt 16 (clip z 0xffff 0) }

/-- `pushScreenZ(z)` (40_arith_core.md R116). -/
def pushScreenZ (z : Int) (r : RegFile) : RegFile :=
  { raise (clipFlags z 0xffff 0 .szOtzSat) r with
    sz0 := r.sz1, sz1 := r.sz2, sz2 := r.sz3, sz3 := BitVec.ofInt 16 (clip z 0xffff 0) }

/-- `pushScreenXY(x, y)` (40_arith_core.md R117). -/
def pushScreenXY (x y : Int) (r : RegFile) : RegFile :=
  { raise (clipFlags x 0x3ff (-0x400) .sx2Sat ||| clipFlags y 0x3ff (-0x400) .sy2Sat) r with
    sxy0 := r.sxy1, sxy1 := r.sxy2
    sxy2 := { x := BitVec.ofInt 16 (clip x 0x3ff (-0x400)), y := BitVec.ofInt 16 (clip y 0x3ff (-0x400)) } }

/-- One pushed colour byte: `clip(asr(MAC<i>, 4), 0xff, 0)` (40_arith_core.md R118). -/
def colorByte (m : Word) : Byte := BitVec.ofInt 8 (clip (asr m.toInt 4) 0xff 0)

/-- The flag of one pushed colour byte (40_arith_core.md R118). -/
def colorFlags (i : Lane) (m : Word) : BitVec 19 := clipFlags (asr m.toInt 4) 0xff 0 (.colorSat i)

/-- `pushColor()`: `MAC1..3 / 16` as bytes, the code byte from `RGBC.code` (40_arith_core.md R118). -/
def pushColor (r : RegFile) : RegFile :=
  { raise (colorFlags .one r.mac.x ||| colorFlags .two r.mac.y ||| colorFlags .three r.mac.z) r with
    rgb0 := r.rgb1, rgb1 := r.rgb2
    rgb2 := { r := colorByte r.mac.x, g := colorByte r.mac.y, b := colorByte r.mac.z, code := r.rgbc.code } }

/-- First half of `interpolate`: the difference to the far colour, always clamped with `lm = 0` (40_arith_core.md R119). -/
def farDifference (fc b : Vec3 Int) : Vec3 Int :=
  { x := shl fc.x 12 - b.x, y := shl fc.y 12 - b.y, z := shl fc.z 12 - b.z }

/-- Second half of `interpolate`: the blend `IR<i> * IR0 + b_i` (40_arith_core.md R119). -/
def blend (ir : Vec3 Int) (ir0 : Int) (b : Vec3 Int) : Vec3 Int :=
  { x := ir.x * ir0 + b.x, y := ir.y * ir0 + b.y, z := ir.z * ir0 + b.z }

/-- `interpolate(b1, b2, b3)` (40_arith_core.md R119). -/
def interpolate (sf lm : Bool) (b : Vec3 Int) (r : RegFile) : RegFile :=
  let r1 := setLanes sf false (farDifference (transVec .fc r) b) r
  setLanes sf lm (blend (irVec r1) r1.ir0.toInt b) r1

/-- An instruction's whole effect is on the register file and it always completes: "every operation is a pure, immediate
computation over explicit register state" (60_exceptions.md R220). -/
def complete (f : RegFile → RegFile) (s : State) : Host.Outcome State Fault Refusal :=
  .next (s.withRegs (f s.regs))

end Sys2Proof.Machine
end

