-- ==== Sys2Proof/Machine/Lighting.lean ====
section
/-! DEFINITION. The normal-colour instructions `ncds`, `nccs`, `ncdt`, `ncct` (spec/44_lighting_color.md R180 to R185, with
the alternative stage order R190). -/

namespace Sys2Proof.Machine

open Sys2Proof

/-- The light `IR1..3` times the current colour `RGBC` (stage D of 44_lighting_color.md R181; the base of `dcpl`, R188). -/
def lightTimesColor (r : RegFile) : Vec3 Int :=
  let c := colorScale r.rgbc
  let i := irVec r
  { x := c.x * i.x, y := c.y * i.y, z := c.z * i.z }

/-- `colmul()`, stage D (44_lighting_color.md R181). -/
def colmul (sf lm : Bool) (r : RegFile) : RegFile := setLanes sf lm (lightTimesColor r) r

/-- `(IR1 << 12, IR2 << 12, IR3 << 12)`, the base of a blend of `IR` (44_lighting_color.md R181 stage C, R189). -/
def irBase (r : RegFile) : Vec3 Int := (irVec r).map (fun v => shl v 12)

/-- `nc(n, cue)` with LIGHT_PIPELINE = document, stages A to E in the document's order (44_lighting_color.md R181). -/
def ncDocument (sf lm : Bool) (n : Fin 3) (cue : Bool) (r : RegFile) : RegFile :=
  let rA := mvma sf lm r.l (vertexVec n r) (transVec .bk r) r
  let rB := mvma sf lm rA.lr (irVec rA) (transVec .fc rA) rA
  let rC := if cue then interpolate sf lm (irBase rB) rB else rB
  pushColor (colmul sf lm rC)

/-- `nc_console(n, cue)`, LIGHT_PIPELINE = console (44_lighting_color.md R190). -/
def ncConsole (sf lm : Bool) (n : Fin 3) (cue : Bool) (r : RegFile) : RegFile :=
  let rA := mvma sf lm r.l (vertexVec n r) { x := 0, y := 0, z := 0 } r
  let rB := mvma sf lm rA.lr (irVec rA) (transVec .bk rA) rA
  let b := lightTimesColor rB
  pushColor (if cue then interpolate sf lm b rB else setLanes sf lm b rB)

/-- The normal-colour datapath `nc(n, cue)` under a configuration (44_lighting_color.md R181, R190). -/
def nc (c : Config RegFile) (sf lm : Bool) (n : Fin 3) (cue : Bool) (r : RegFile) : RegFile :=
  match c.lightPipeline with
  | .document => ncDocument sf lm n cue r
  | .console => ncConsole sf lm n cue r

/-- `ncds` under a configuration (44_lighting_color.md R182). -/
def ncds (c : Config RegFile) (sf lm : Bool) (s : State) : Host.Outcome State Fault Refusal :=
  complete (nc c sf lm 0 true) s

/-- `nccs` under a configuration (44_lighting_color.md R183). -/
def nccs (c : Config RegFile) (sf lm : Bool) (s : State) : Host.Outcome State Fault Refusal :=
  complete (nc c sf lm 0 false) s

/-- `ncdt` under a configuration: `ncds` on the three vertices in sequence (44_lighting_color.md R184). -/
def ncdt (c : Config RegFile) (sf lm : Bool) (s : State) : Host.Outcome State Fault Refusal :=
  complete (fun r => nc c sf lm 2 true (nc c sf lm 1 true (nc c sf lm 0 true r))) s

/-- `ncct` under a configuration: `nccs` on the three vertices in sequence (44_lighting_color.md R185). -/
def ncct (c : Config RegFile) (sf lm : Bool) (s : State) : Host.Outcome State Fault Refusal :=
  complete (fun r => nc c sf lm 2 false (nc c sf lm 1 false (nc c sf lm 0 false r))) s

/-- `ncds`, opcode 13 (44_lighting_color.md R182). -/
def execNcds (sf lm : Bool) (s : State) : Host.Outcome State Fault Refusal := ncds params sf lm s

/-- `nccs`, opcode 1B (44_lighting_color.md R183). -/
def execNccs (sf lm : Bool) (s : State) : Host.Outcome State Fault Refusal := nccs params sf lm s

/-- `ncdt`, opcode 16 (44_lighting_color.md R184). -/
def execNcdt (sf lm : Bool) (s : State) : Host.Outcome State Fault Refusal := ncdt params sf lm s

/-- `ncct`, opcode 3F (44_lighting_color.md R185). -/
def execNcct (sf lm : Bool) (s : State) : Host.Outcome State Fault Refusal := ncct params sf lm s

end Sys2Proof.Machine
end

