-- ==== Sys2Proof/Machine/DepthCue.lean ====
section
/-! DEFINITION. The depth-cue and interpolation instructions `dcps`, `dcpt`, `dcpl`, `intpl` (spec/44_lighting_color.md R186
to R189). -/

namespace Sys2Proof.Machine

open Sys2Proof

/-- `dcp(r, g, b)`: blend a colour, on the scale `colour << 16`, toward the far colour and push it
(44_lighting_color.md R186). -/
def dcp (sf lm : Bool) (c : Color) (r : RegFile) : RegFile :=
  pushColor (interpolate sf lm
    { x := shl (unsignedVal c.r) 16, y := shl (unsignedVal c.g) 16, z := shl (unsignedVal c.b) 16 } r)

/-- One pass of `dcpt`: the oldest FIFO entry, read afresh (44_lighting_color.md R187). -/
def dcpOldest (sf lm : Bool) (r : RegFile) : RegFile := dcp sf lm r.rgb0 r

/-- `dcps`, opcode 10: the current colour `RGBC` (44_lighting_color.md R186). -/
def execDcps (sf lm : Bool) (s : State) : Host.Outcome State Fault Refusal :=
  complete (fun r => dcp sf lm r.rgbc r) s

/-- `dcpt`, opcode 2A: three passes over the RGB FIFO, oldest first (44_lighting_color.md R187). -/
def execDcpt (sf lm : Bool) (s : State) : Host.Outcome State Fault Refusal :=
  complete (fun r => dcpOldest sf lm (dcpOldest sf lm (dcpOldest sf lm r))) s

/-- `dcpl`, opcode 29: the light in `IR1..3` times the current colour, blended (44_lighting_color.md R188). -/
def execDcpl (sf lm : Bool) (s : State) : Host.Outcome State Fault Refusal :=
  complete (fun r => pushColor (interpolate sf lm (lightTimesColor r) r)) s

/-- `intpl`, opcode 11: `IR1..3` blended toward the far colour (44_lighting_color.md R189). -/
def execIntpl (sf lm : Bool) (s : State) : Host.Outcome State Fault Refusal :=
  complete (fun r => pushColor (interpolate sf lm (irBase r) r)) s

end Sys2Proof.Machine
end

