-- ==== Sys2Proof/Machine/Mvmva.lean ====
section
/-! DEFINITION. The generalized matrix-multiply-add `mvmva` (spec/43_mvmva.md R170 to R172). -/

namespace Sys2Proof.Machine

open Sys2Proof

/-- `mvmva` under a configuration: refused when no matrix stands behind the selector (43_mvmva.md R170, R172). -/
def mvmva (c : Config RegFile) (sf lm : Bool) (mx : MatrixSel) (vx : VectorSel) (tx : TransSel) (s : State) :
    Host.Outcome State Fault Refusal :=
  match matrixOf c mx s.regs with
  | none => .refused .reservedMatrix
  | some m => complete (fun r => mvma sf lm m (vectorOf vx r) (transOf tx r) r) s

/-- `mvmva`, opcode 12 (43_mvmva.md R170). -/
def execMvmva (sf lm : Bool) (mx : MatrixSel) (vx : VectorSel) (tx : TransSel) (s : State) :
    Host.Outcome State Fault Refusal :=
  mvmva params sf lm mx vx tx s

end Sys2Proof.Machine
end

