-- ==== Sys2Proof/Machine/Projection.lean ====
section
/-! DEFINITION. The projection instructions `rtps` and `rtpt` (spec/42_projection.md R160 to R162). -/

namespace Sys2Proof.Machine

open Sys2Proof

/-- Step 7 of `rtp`: the depth-cue factor `IR0` from the quotient (42_projection.md R161). -/
def depthCue (q : Int) (r : RegFile) : RegFile :=
  let d := q * r.dqa.toInt + r.dqb.toInt
  let r := setMac0 d r
  { raise (clipFlags (asr d 12) 0x1000 0 .ir0Sat) r with ir0 := BitVec.ofInt 16 (clip (asr d 12) 0x1000 0) }

/-- Steps 3 to 6 of `rtp`, given the quotient: the screen position from the clamped `IR1`, `IR2`, shifts of the full sums
(42_projection.md R161). -/
def projectXY (q : Int) (r : RegFile) : RegFile :=
  let x := q * r.ir.x.toInt + r.ofx.toInt
  let y := q * r.ir.y.toInt + r.ofy.toInt
  pushScreenXY (asr x 16) (asr y 16) (setMac0 y (setMac0 x r))

/-- `rtp(n, last)`, the shared datapath (42_projection.md R160, R161). -/
def rtp (c : Config RegFile) (sf lm : Bool) (n : Fin 3) (last : Bool) (r : RegFile) : RegFile :=
  let v := vertexVec n r
  let t := transVec .tr r
  let s3 := mvmaSum r.rt v t .three
  let r2 := pushScreenZ (asr s3 12) (mvma sf lm r.rt v t r)
  let d := c.recip r2.h r2.sz3
  let q := unsignedVal d.1
  let r6 := projectXY q (raise (flagIf d.2 .divOvf) r2)
  if last && c.rtpsDepthCue then depthCue q r6 else r6

/-- `rtps` under a configuration: `rtp(0, true)` (42_projection.md R161). -/
def rtps (c : Config RegFile) (sf lm : Bool) (s : State) : Host.Outcome State Fault Refusal :=
  complete (rtp c sf lm 0 true) s

/-- `rtpt` under a configuration: the three vertices in turn, depth cue on the last only; flags accumulate
(42_projection.md R162). -/
def rtpt (c : Config RegFile) (sf lm : Bool) (s : State) : Host.Outcome State Fault Refusal :=
  complete (fun r => rtp c sf lm 2 true (rtp c sf lm 1 false (rtp c sf lm 0 false r))) s

/-- `rtps`, opcode 01 (42_projection.md R161). -/
def execRtps (sf lm : Bool) (s : State) : Host.Outcome State Fault Refusal := rtps params sf lm s

/-- `rtpt`, opcode 30 (42_projection.md R162). -/
def execRtpt (sf lm : Bool) (s : State) : Host.Outcome State Fault Refusal := rtpt params sf lm s

end Sys2Proof.Machine
end

