-- ==== Sys2Proof/Machine/Utility.lean ====
section
/-! DEFINITION. The general-purpose and geometry utility instructions `gpf`, `gpl`, `sqr`, `op`, `nclip`, `avsz3`, `avsz4`
(spec/45_utility.md R200 to R207). -/

namespace Sys2Proof.Machine

open Sys2Proof

/-- `gpf`, opcode 3D: `IR0 * IR<i>` (45_utility.md R201). -/
def execGpf (sf lm : Bool) (s : State) : Host.Outcome State Fault Refusal :=
  complete (fun r => pushColor (setLanes sf lm ((irVec r).map (fun v => r.ir0.toInt * v)) r)) s

/-- The sums of `gpl`: `(MAC<i> << 12*sf) + IR0 * IR<i>` (45_utility.md R202). -/
def gplSums (sf : Bool) (r : RegFile) : Vec3 Int :=
  let a := (signedVec r.mac).map (fun v => shl v (sfShift sf))
  let i := irVec r
  { x := a.x + r.ir0.toInt * i.x, y := a.y + r.ir0.toInt * i.y, z := a.z + r.ir0.toInt * i.z }

/-- `gpl`, opcode 3E (45_utility.md R202). -/
def execGpl (sf lm : Bool) (s : State) : Host.Outcome State Fault Refusal :=
  complete (fun r => pushColor (setLanes sf lm (gplSums sf r) r)) s

/-- `sqr`, opcode 28: each `IR` lane squared (45_utility.md R203). -/
def execSqr (sf lm : Bool) (s : State) : Host.Outcome State Fault Refusal :=
  complete (fun r => setLanes sf lm ((irVec r).map (fun v => v * v)) r) s

/-- The three sums of `op`: the cross product `D × IR`, `D` the diagonal of `RT` (45_utility.md R204). -/
def opSums (r : RegFile) : Vec3 Int :=
  let d1 := r.rt.row1.x.toInt
  let d2 := r.rt.row2.y.toInt
  let d3 := r.rt.row3.z.toInt
  let i := irVec r
  { x := i.z * d2 - i.y * d3, y := i.x * d3 - i.z * d1, z := i.y * d1 - i.x * d2 }

/-- `op`, opcode 0C (45_utility.md R204). -/
def execOp (sf lm : Bool) (s : State) : Host.Outcome State Fault Refusal :=
  complete (fun r => setLanes sf lm (opSums r) r) s

/-- The value of `nclip`: `(x1-x0)(y2-y0) - (y1-y0)(x2-x0)` (45_utility.md R205). -/
def nclipValue (r : RegFile) : Int :=
  (r.sxy1.x.toInt - r.sxy0.x.toInt) * (r.sxy2.y.toInt - r.sxy0.y.toInt)
    - (r.sxy1.y.toInt - r.sxy0.y.toInt) * (r.sxy2.x.toInt - r.sxy0.x.toInt)

/-- `nclip`, opcode 06 (45_utility.md R205). -/
def execNclip (s : State) : Host.Outcome State Fault Refusal :=
  complete (fun r => setMac0 (nclipValue r) r) s

/-- `avsz3`, opcode 2D (45_utility.md R206). -/
def execAvsz3 (s : State) : Host.Outcome State Fault Refusal :=
  complete (fun r => setOtz (setMac0
    (r.zsf3.toInt * (unsignedVal r.sz1 + unsignedVal r.sz2 + unsignedVal r.sz3)) r)) s

/-- `avsz4`, opcode 2E (45_utility.md R207). -/
def execAvsz4 (s : State) : Host.Outcome State Fault Refusal :=
  complete (fun r => setOtz (setMac0
    (r.zsf4.toInt * (unsignedVal r.sz0 + unsignedVal r.sz1 + unsignedVal r.sz2 + unsignedVal r.sz3)) r)) s

end Sys2Proof.Machine
end

