-- ==== Sys2Proof/Machine/Dispatch.lean ====
section
/-! DEFINITION. The dispatch: one arm per instruction (spec/30_encoding.md R86). `exec` is the body of the instruction's rule,
step 3 of `COMMAND` (R83); the clearing of `FLAG` before it is step 2 and stands in Machine/Transactions.lean. -/

namespace Sys2Proof.Machine

open Sys2Proof

def exec (i : Instr) (s : State) : Host.Outcome State Fault Refusal :=
  match i with
  | .rtps sf lm => Sys2Proof.Machine.execRtps sf lm s
  | .nclip => Sys2Proof.Machine.execNclip s
  | .op sf lm => Sys2Proof.Machine.execOp sf lm s
  | .dcps sf lm => Sys2Proof.Machine.execDcps sf lm s
  | .intpl sf lm => Sys2Proof.Machine.execIntpl sf lm s
  | .mvmva sf lm mx vx tx => Sys2Proof.Machine.execMvmva sf lm mx vx tx s
  | .ncds sf lm => Sys2Proof.Machine.execNcds sf lm s
  | .ncdt sf lm => Sys2Proof.Machine.execNcdt sf lm s
  | .nccs sf lm => Sys2Proof.Machine.execNccs sf lm s
  | .sqr sf lm => Sys2Proof.Machine.execSqr sf lm s
  | .dcpl sf lm => Sys2Proof.Machine.execDcpl sf lm s
  | .dcpt sf lm => Sys2Proof.Machine.execDcpt sf lm s
  | .avsz3 => Sys2Proof.Machine.execAvsz3 s
  | .avsz4 => Sys2Proof.Machine.execAvsz4 s
  | .rtpt sf lm => Sys2Proof.Machine.execRtpt sf lm s
  | .gpf sf lm => Sys2Proof.Machine.execGpf sf lm s
  | .gpl sf lm => Sys2Proof.Machine.execGpl sf lm s
  | .ncct sf lm => Sys2Proof.Machine.execNcct sf lm s

end Sys2Proof.Machine
end

