-- ==== Sys2Proof/Machine/RegAccess.lean ====
section
/-! DEFINITION. The host's register moves `READ` and `WRITE`, register by register (spec/41_register_access.md R130 to R156). -/

namespace Sys2Proof.Machine

open Sys2Proof

/-- The low half of a word, `w[15:0]`. -/
def lowHalf (w : Word) : Half := w.extractLsb' 0 16

/-- The high half of a word, `w[31:16]`. -/
def highHalf (w : Word) : Half := w.extractLsb' 16 16

/-- Two 16-bit elements packed in a word, the first-named in the low half (20_memory.md R62). -/
def packHalves (lo hi : Half) : Word := hi ++ lo

/-- A signed 16-bit field alone in a word reads sign-extended (41_register_access.md R130). -/
def readSigned (x : Half) : Word := x.signExtend 32

/-- An unsigned 16-bit field alone in a word reads zero-extended (41_register_access.md R130). -/
def readUnsigned (x : Half) : Word := x.setWidth 32

/-- The word of a packed colour: `code << 24 | b << 16 | g << 8 | r` (41_register_access.md R133). -/
def packColor (c : Color) : Word := c.code ++ c.b ++ c.g ++ c.r

/-- The four bytes of a packed colour (41_register_access.md R133). -/
def unpackColor (w : Word) : Color :=
  { r := w.extractLsb' 0 8, g := w.extractLsb' 8 8, b := w.extractLsb' 16 8, code := w.extractLsb' 24 8 }

/-- One 5-bit lane of `IRGB`: `clip(asr(IR<i>, 7), 0x1f, 0)` (41_register_access.md R143). -/
def irgbLane (x : Half) : BitVec 5 := BitVec.ofInt 5 (clip (asr x.toInt 7) 0x1f 0)

/-- The view `IRGB`/`ORGB` of `IR1..3` (41_register_access.md R143). -/
def irgbWord (ir : Vec3 Half) : Word :=
  (0#17 ++ irgbLane ir.z ++ irgbLane ir.y ++ irgbLane ir.x : BitVec 32)

/-- The `IR` value a 5-bit lane of a write to `IRGB` loads: the lane times `0x80` (41_register_access.md R143). -/
def irOfLane (c : BitVec 5) : Half := c.setWidth 16 <<< 7

/-- The clamp of a bare register write to `IR1..3`: the signed 32-bit value to `[-0x8000, 0x7fff]`, no flag
(41_register_access.md R137, 90_conflicts.md C15). -/
def clampIrWrite (w : Word) : Half := BitVec.ofInt 16 (clip w.toInt 0x7fff (-0x8000))

/-- Elements `e(2j)` and `e(2j+1)` of a matrix listed row by row (41_register_access.md R147). -/
def matrixPair (m : Mat3) (j : Fin 4) : Half × Half :=
  match j with
  | 0 => (m.row1.x, m.row1.y)
  | 1 => (m.row1.z, m.row2.x)
  | 2 => (m.row2.y, m.row2.z)
  | 3 => (m.row3.x, m.row3.y)

/-- Replace elements `e(2j)` and `e(2j+1)` of a matrix (41_register_access.md R147). -/
def setMatrixPair (m : Mat3) (j : Fin 4) (lo hi : Half) : Mat3 :=
  match j with
  | 0 => { m with row1 := { m.row1 with x := lo, y := hi } }
  | 1 => { m with row1 := { m.row1 with z := lo }, row2 := { m.row2 with x := hi } }
  | 2 => { m with row2 := { m.row2 with y := lo, z := hi } }
  | 3 => { m with row3 := { m.row3 with x := lo, y := hi } }

/-- The word behind a host register under a FLAGMAP (41_register_access.md R131 to R156). -/
def readReg (m : FlagMap) (q : HostReg) (r : RegFile) : Word :=
  match q with
  | .vxy n => packHalves (vertex n r).x (vertex n r).y
  | .vz n => readSigned (vertex n r).z
  | .rgbc => packColor r.rgbc
  | .otz => readUnsigned r.otz
  | .ir0 => readSigned r.ir0
  | .ir i => readSigned (r.ir.get i)
  | .sxy k => packHalves (sxy k r).x (sxy k r).y
  | .sxy3 => packHalves r.sxy2.x r.sxy2.y
  | .sz k => readUnsigned (sz k r)
  | .rgb k => packColor (rgb k r)
  | .res1 => r.res1
  | .mac0 => r.mac0
  | .mac i => r.mac.get i
  | .irgb => irgbWord r.ir
  | .orgb => irgbWord r.ir
  | .lzcs => r.lzcs
  | .lzcr => BitVec.ofNat 32 (lzcount r.lzcs)
  | .matPair a j => packHalves (matrixPair (matrix a r) j).1 (matrixPair (matrix a r) j).2
  | .mat33 a => readSigned (matrix a r).row3.z
  | .trans t i => (translation t r).get i
  | .ofx => r.ofx
  | .ofy => r.ofy
  | .h => readSigned r.h
  | .dqa => readSigned r.dqa
  | .dqb => r.dqb
  | .zsf3 => readSigned r.zsf3
  | .zsf4 => readSigned r.zsf4
  | .flag => flagWordWith m r.flag

/-- `READ(idx)` under a configuration: the word at an index, no state changed (41_register_access.md R130). -/
def readIndexWith (c : Config RegFile) (idx : BitVec 6) (r : RegFile) : Word := readReg c.flagMap (c.regMap idx) r

/-- `READ(idx)`, with the default maps. -/
def readIndex (idx : BitVec 6) (r : RegFile) : Word := readIndexWith params idx r

/-- The register file after a write to a host register under a FLAGMAP (41_register_access.md R131 to R156): the fields behind that
register only, no FIFO shift, no flag but by `FLAG` itself (R155). -/
def writeReg (m : FlagMap) (q : HostReg) (w : Word) (r : RegFile) : RegFile :=
  match q with
  | .vxy n => setVertex n { vertex n r with x := lowHalf w, y := highHalf w } r
  | .vz n => setVertex n { vertex n r with z := lowHalf w } r
  | .rgbc => { r with rgbc := unpackColor w }
  | .otz => { r with otz := lowHalf w }
  | .ir0 => { r with ir0 := lowHalf w }
  | .ir i => { r with ir := r.ir.set i (clampIrWrite w) }
  | .sxy k => setSxy k { x := lowHalf w, y := highHalf w } r
  | .sxy3 => setSxy 2 { x := lowHalf w, y := highHalf w } r
  | .sz k => setSz k (lowHalf w) r
  | .rgb k => setRgb k (unpackColor w) r
  | .res1 => { r with res1 := w }
  | .mac0 => { r with mac0 := w }
  | .mac i => { r with mac := r.mac.set i w }
  | .irgb => { r with ir := { x := irOfLane (w.extractLsb' 0 5), y := irOfLane (w.extractLsb' 5 5)
                              z := irOfLane (w.extractLsb' 10 5) } }
  | .orgb => r
  | .lzcs => { r with lzcs := w }
  | .lzcr => r
  | .matPair a j => setMatrix a (setMatrixPair (matrix a r) j (lowHalf w) (highHalf w)) r
  | .mat33 a => setMatrix a { matrix a r with row3 := { (matrix a r).row3 with z := lowHalf w } } r
  | .trans t i => setTrans t ((translation t r).set i w) r
  | .ofx => { r with ofx := w }
  | .ofy => { r with ofy := w }
  | .h => { r with h := lowHalf w }
  | .dqa => { r with dqa := lowHalf w }
  | .dqb => { r with dqb := w }
  | .zsf3 => { r with zsf3 := lowHalf w }
  | .zsf4 => { r with zsf4 := lowHalf w }
  | .flag => { r with flag := loadFlagsWith m w }

/-- `WRITE(idx, w)` under a configuration (41_register_access.md R155). -/
def writeIndexWith (c : Config RegFile) (idx : BitVec 6) (w : Word) (r : RegFile) : RegFile :=
  writeReg c.flagMap (c.regMap idx) w r

/-- `WRITE(idx, w)`, with the default maps. -/
def writeIndex (idx : BitVec 6) (w : Word) (r : RegFile) : RegFile := writeIndexWith params idx w r

end Sys2Proof.Machine
end

