-- ==== Sys2Proof/Machine/Transactions.lean ====
section
/-! DEFINITION. The host's three transactions as steps of the machine (spec/00_scope.md R6, spec/30_encoding.md R83, R88), and
the entry each would leave in the optional diagnostics log (spec/60_exceptions.md R232). Each is a function of the
configuration and of the machine's instructions `run`; with the default configuration `run` is `exec`. -/

namespace Sys2Proof.Machine

open Sys2Proof

/-- Record what the transaction returns. -/
def respond (a : Response) (s : State) : State := { s with response := a }

/-- The instructions under a configuration (00_scope.md R5): those whose rule names a parameter read it, every other one is
the same under all. -/
def execWith (c : Config RegFile) (i : Instr) (s : State) : Host.Outcome State Fault Refusal :=
  match i with
  | .rtps sf lm => rtps c sf lm s
  | .nclip => execNclip s
  | .op sf lm => execOp sf lm s
  | .dcps sf lm => execDcps sf lm s
  | .intpl sf lm => execIntpl sf lm s
  | .mvmva sf lm mx vx tx => mvmva c sf lm mx vx tx s
  | .ncds sf lm => ncds c sf lm s
  | .ncdt sf lm => ncdt c sf lm s
  | .nccs sf lm => nccs c sf lm s
  | .sqr sf lm => execSqr sf lm s
  | .dcpl sf lm => execDcpl sf lm s
  | .dcpt sf lm => execDcpt sf lm s
  | .avsz3 => execAvsz3 s
  | .avsz4 => execAvsz4 s
  | .rtpt sf lm => rtpt c sf lm s
  | .gpf sf lm => execGpf sf lm s
  | .gpl sf lm => execGpl sf lm s
  | .ncct sf lm => ncct c sf lm s

/-- Steps 3 and 5 of `COMMAND`, on a state whose `FLAG` is already clear: run the recognised instruction and answer true, or
do nothing and answer false (30_encoding.md R83, R88). -/
def dispatch (run : Instr → State → Host.Outcome State Fault Refusal) (d : Except DecodeError Instr) (s : State) :
    Host.Outcome State Fault Refusal :=
  match d with
  | .error _ => .next (respond (.recognised false) s)
  | .ok i =>
    match run i s with
    | .next t => .next (respond (.recognised true) t)
    | .fault e => .fault e
    | .refused e => .refused e

/-- `COMMAND(cmd)`: `FLAG <- 0`, then dispatch (30_encoding.md R83). -/
def commandWith (c : Config RegFile) (run : Instr → State → Host.Outcome State Fault Refusal) (cmd : Word) (s : State) :
    Host.Outcome State Fault Refusal :=
  dispatch run (decodeWith c.toEncoding cmd) (s.withRegs (clearFlag s.regs))

/-- `COMMAND(cmd)`, with the default configuration. -/
def command (cmd : Word) (s : State) : Host.Outcome State Fault Refusal := commandWith params exec cmd s

/-- One transaction, one atomic step (00_scope.md R6, 20_memory.md R65). -/
def performWith (c : Config RegFile) (run : Instr → State → Host.Outcome State Fault Refusal) (t : Transaction) (s : State) :
    Host.Outcome State Fault Refusal :=
  match t with
  | .read idx => .next (respond (.word (readIndexWith c idx s.regs)) s)
  | .write idx w => .next (respond .written (s.withRegs (writeIndexWith c idx w s.regs)))
  | .command cmd => commandWith c run cmd s

/-- One transaction, with the default configuration. -/
def perform (t : Transaction) (s : State) : Host.Outcome State Fault Refusal := performWith params exec t s

/-- The next step of the machine: take the oldest transaction the host has issued; with none issued the core is idle and
holds its state (20_memory.md R69, 60_exceptions.md R230; log 2). -/
def takeNextWith (c : Config RegFile) (run : Instr → State → Host.Outcome State Fault Refusal) (s : State) :
    Host.Outcome State Fault Refusal :=
  match s.pending with
  | [] => .next s
  | t :: rest => performWith c run t { s with pending := rest }

/-- The next step, with the default configuration. -/
def takeNext (s : State) : Host.Outcome State Fault Refusal := takeNextWith params exec s

/-- The mode field of a log entry (60_exceptions.md R232). -/
inductive LogMode where
  | read
  | write
  | func
  deriving DecidableEq, Repr

/-- An entry of the diagnostics log: `{mode, register-or-opcode index, data}` (60_exceptions.md R232). -/
structure LogEntry where
  mode : LogMode
  index : BitVec 6
  data : Word
  deriving DecidableEq, Repr

/-- The entry a transaction leaves: the word read, the word written, or the command word. It is a function of the transaction
and the registers, not state of the core, and nothing reads it (60_exceptions.md R232). -/
def logEntryWith (c : Config RegFile) (t : Transaction) (r : RegFile) : LogEntry :=
  match t with
  | .read idx => { mode := .read, index := idx, data := readIndexWith c idx r }
  | .write idx w => { mode := .write, index := idx, data := w }
  | .command cmd => { mode := .func, index := (fieldsOfWith c.cmdFields cmd).opcode, data := cmd }

/-- The entry a transaction leaves, with the default configuration. -/
def logEntry (t : Transaction) (r : RegFile) : LogEntry := logEntryWith params t r

/-- The log of the transactions taken in `k` steps, oldest first; it ends where the machine stops
(60_exceptions.md R232). -/
def traceWith (c : Config RegFile) (run : Instr → State → Host.Outcome State Fault Refusal) : Nat → State → List LogEntry
  | 0, _ => []
  | k + 1, s =>
    match s.pending with
    | [] => []
    | t :: _ =>
      match takeNextWith c run s with
      | .next s' => logEntryWith c t s.regs :: traceWith c run k s'
      | .fault _ => []
      | .refused _ => []

/-- The log, with the default configuration. -/
def trace (k : Nat) (s : State) : List LogEntry := traceWith params exec k s

end Sys2Proof.Machine
end

