-- ==== Sys2Proof/Machine/Step.lean ====
section
/-! DEFINITION. The step function: one step takes one transaction of the host (spec/00_scope.md R6, spec/20_memory.md R69). -/

namespace Sys2Proof.Machine

open Sys2Proof

/-- One step of the machine (00_scope.md R6). -/
def step (s : State) : Host.Outcome State Fault Refusal := takeNext s

/-- One step of the machine under a configuration (00_scope.md R5). -/
def stepWith (c : Config RegFile) (s : State) : Host.Outcome State Fault Refusal := takeNextWith c (execWith c) s

/-- The machine right after reset under a configuration, its registers at RESET_STATE (70_reset_and_hazards.md R240). -/
def State.resetWith (c : Config RegFile) : State := State.initial c.resetState

/-- The machine of a configuration, as the host would run it. -/
def coreWith (c : Config RegFile) : Host.Core :=
  { State := State, Fault := Fault, Refusal := Refusal, step := stepWith c, reset := State.resetWith c }

/-- The machine when the host issues one instruction, as `COMMAND` of its word, to be taken by the next step. The core
fetches nothing: an instruction arrives as the argument of a `COMMAND` transaction (10_state.md R50; log 2). -/
def State.withFetchWord (s : State) (nbits w : Nat) : State :=
  { s with pending := .command (tableWord nbits w) :: s.pending }

end Sys2Proof.Machine
end

