-- ==== Sys2Proof/Safety.lean ====
section
/-! DEFINITION. The terms claims are stated in: which transactions the model accepts, the range invariant of the screen
positions, and what each instruction's rule gives in exact integers. The exact descriptions use floor division, `max`, `min`
and the balanced remainder, not the machine's own clamp, shift and wrap, and do not wrap a lane sum to 44 bits before it is
stored: spec/40_arith_core.md R101 says that the wrap "cannot change `MAC<i>` or `IR<i>`". -/

namespace Sys2Proof.Safety

open Sys2Proof Sys2Proof.Machine

/-- A transaction the model has a meaning for: all but `mvmva` with the reserved matrix (60_exceptions.md R224). -/
def accepted : Transaction → Bool
  | .read _ => true
  | .write _ _ => true
  | .command cmd =>
    match decode cmd with
    | .ok i => i.wellFormed
    | .error _ => true

/-- Every transaction the host has issued is accepted. -/
def scriptAccepted (s : State) : Bool := s.pending.all accepted

/-- A run of `k` steps that neither faults nor is refused. -/
def RunsSafely (k : Nat) (s : State) : Prop := ∃ t, Host.Core.run Sys2Proof.core k s = .next t

/-- A screen position as a push leaves it, both lanes in `[-0x400, 0x3ff]` (10_state.md R48 (e)). -/
def inScreenRange (p : ScreenXY) : Bool :=
  decide (-1024 ≤ p.x.toInt) && decide (p.x.toInt ≤ 1023) && decide (-1024 ≤ p.y.toInt) && decide (p.y.toInt ≤ 1023)

/-- A transaction that is no host write to a slot of the SXY FIFO (indices 12 to 15). -/
def keepsScreenSlots : Transaction → Bool
  | .read _ => true
  | .write idx _ => decide (idx.toNat < 12) || decide (15 < idx.toNat)
  | .command _ => true

/-- The invariant of 10_state.md R48 (e): every slot of the SXY FIFO is in the screen range, and the host's script writes
none of them ("A host write to a FIFO slot may break" it). -/
def ScreenInv (s : State) : Prop :=
  inScreenRange s.regs.sxy0 = true ∧ inScreenRange s.regs.sxy1 = true ∧ inScreenRange s.regs.sxy2 = true ∧
    s.pending.all keepsScreenSlots = true

/-- One named condition of a stored `FLAG`. -/
def flagAt (flag : BitVec 19) (f : FlagName) : Bool := flag.getLsbD (storedBit f)

/-- The instruction completes: `exec` answers the state with register file `r'`, but for the stored `FLAG`, which holds the
conditions it held before and those of `p`. The host interface is unchanged. -/
def Completes (i : Instr) (s : State) (r' : RegFile) (p : FlagName → Bool) : Prop :=
  ∃ fl, exec i s = .next (s.withRegs { r' with flag := fl }) ∧ ∀ f, flagAt fl f = (flagAt s.regs.flag f || p f)

/-! Which configurations are encodings at all (00_scope.md R5). -/

/-- Two fields, given by lowest bit and width, share no bit. -/
abbrev apart (a b : Nat × Nat) : Prop := a.1 + a.2 ≤ b.1 ∨ b.1 + b.2 ≤ a.1

/-- The fields of a layout, each its lowest bit and its width (30_encoding.md R81). -/
def fieldSpans (l : CmdLayout) : List (Nat × Nat) :=
  [(l.opcode, 6), (l.lm, 1), (l.tx, 2), (l.vx, 2), (l.mx, 2), (l.sf, 1)]

/-- CMDFIELDS of a 32-bit word: every field inside the word, no two overlapping. -/
abbrev LegalLayout (l : CmdLayout) : Prop :=
  (∀ p ∈ fieldSpans l, p.1 + p.2 ≤ 32) ∧ (fieldSpans l).Pairwise apart

/-- A legal layout, and a number of its own for each instruction. -/
def LegalEncoding (e : Encoding) : Prop := LegalLayout e.cmdFields ∧ ∀ o o', e.opcodes o = e.opcodes o' → o = o'

/-- FLAGMAP of a 32-bit word: a bit of its own below the error bit for each condition, and an error subset of "the other flag
bits" (10_state.md R46). -/
def LegalFlagMap (m : FlagMap) : Prop :=
  (∀ f, m.bit f < 31) ∧ (∀ f f', m.bit f = m.bit f' → f = f') ∧ m.errorMask.getLsbD 31 = false

/-! What the rules give, lane by lane. -/

/-- A lane sum is above the 44-bit range (40_arith_core.md R101). -/
def above44 (v : Int) : Bool := decide (2 ^ 43 - 1 < v)

/-- A lane sum is below the 44-bit range (40_arith_core.md R101). -/
def below44 (v : Int) : Bool := decide (v < -2 ^ 43)

/-- A `MAC0` value is above the 32-bit range (40_arith_core.md R103). -/
def above32 (v : Int) : Bool := decide (2 ^ 31 - 1 < v)

/-- A `MAC0` value is below the 32-bit range (40_arith_core.md R103). -/
def below32 (v : Int) : Bool := decide (v < -2 ^ 31)

/-- `v` saturated to `[lo, hi]` (40_arith_core.md R105, R120 (d)). -/
def saturate (lo hi v : Int) : Int := max lo (min hi v)

/-- `v` is outside `[lo, hi]`, so that saturating it sets a flag (40_arith_core.md R105). -/
def outside (lo hi v : Int) : Bool := decide (saturate lo hi v ≠ v)

/-- `MAC<i>` for the exact lane sum `v`: its low 32 bits after the `sf` shift (40_arith_core.md R106, R120 (b)). -/
def macOf (sf : Bool) (v : Int) : Word := BitVec.ofInt 32 (if sf then v / 4096 else v)

/-- The lower bound of `IR1..3` (40_arith_core.md R109). -/
def irLow (lm : Bool) : Int := if lm then 0 else -32768

/-- `IR<i>` for a stored `MAC<i>` (40_arith_core.md R109). -/
def irOf (lm : Bool) (m : Word) : Half := BitVec.ofInt 16 (saturate (irLow lm) 32767 m.toInt)

/-- `MAC1..3` for three exact lane sums. -/
def macsOf (sf : Bool) (v : Vec3 Int) : Vec3 Word := v.map (macOf sf)

/-- `IR1..3` for three stored `MAC`. -/
def irsOf (lm : Bool) (m : Vec3 Word) : Vec3 Half := m.map (irOf lm)

/-- The flags of storing three lane sums: the 44-bit check of each sum and the clamp of each `IR` (40_arith_core.md R108). -/
def lanesFlag (sf lm : Bool) (v : Vec3 Int) : FlagName → Bool
  | .macPos i => above44 (v.get i)
  | .macNeg i => below44 (v.get i)
  | .irSat i => outside (irLow lm) 32767 ((macsOf sf v).get i).toInt
  | _ => false

/-- The colour byte of a stored `MAC<i>` (40_arith_core.md R118). -/
def byteOf (m : Word) : Byte := BitVec.ofInt 8 (saturate 0 255 (m.toInt / 16))

/-- The colour pushed for `MAC1..3` (40_arith_core.md R118). -/
def pushed (m : Vec3 Word) (code : Byte) : Color :=
  { r := byteOf m.x, g := byteOf m.y, b := byteOf m.z, code := code }

/-- The flags of pushing a colour (40_arith_core.md R118). -/
def pushedFlag (m : Vec3 Word) : FlagName → Bool
  | .colorSat i => outside 0 255 ((m.get i).toInt / 16)
  | _ => false

/-- The exact sum of a matrix row, a vector and a translation: `T * 2^12 + M1*v1 + M2*v2 + M3*v3` (40_arith_core.md R107). -/
def rowSum (row : Vec3 Half) (v : Vec3 Int) (t : Int) : Int :=
  t * 4096 + row.x.toInt * v.x + row.y.toInt * v.y + row.z.toInt * v.z

/-- `M·v + T` in exact integers. -/
def rowSums (m : Mat3) (v t : Vec3 Int) : Vec3 Int :=
  { x := rowSum m.row1 v t.x, y := rowSum m.row2 v t.y, z := rowSum m.row3 v t.z }

/-- Some partial sum of a row has a property, each partial sum taken on the 44-bit remainder of the one before it
(40_arith_core.md R107). -/
def somePartial (p : Int → Bool) (row : Vec3 Half) (v : Vec3 Int) (t : Int) : Bool :=
  let a := t * 4096 + row.x.toInt * v.x
  let b := a.bmod (2 ^ 44) + row.y.toInt * v.y
  let c := b.bmod (2 ^ 44) + row.z.toInt * v.z
  p a || p b || p c

/-- The flags of `mvma`: the partial sums of each lane and the clamp of each `IR` (40_arith_core.md R107). -/
def rowsFlag (sf lm : Bool) (m : Mat3) (v t : Vec3 Int) : FlagName → Bool
  | .macPos i => somePartial above44 (m.row i) v (t.get i)
  | .macNeg i => somePartial below44 (m.row i) v (t.get i)
  | .irSat i => outside (irLow lm) 32767 ((macsOf sf (rowSums m v t)).get i).toInt
  | _ => false

/-- The difference to the far colour (40_arith_core.md R119). -/
def farSums (r : RegFile) (b : Vec3 Int) : Vec3 Int :=
  { x := r.fc.x.toInt * 4096 - b.x, y := r.fc.y.toInt * 4096 - b.y, z := r.fc.z.toInt * 4096 - b.z }

/-- The blend with weight `IR0`: the clamped difference times `IR0` plus the base (40_arith_core.md R119). -/
def blendSums (sf : Bool) (r : RegFile) (b : Vec3 Int) : Vec3 Int :=
  let d := irsOf false (macsOf sf (farSums r b))
  { x := d.x.toInt * r.ir0.toInt + b.x, y := d.y.toInt * r.ir0.toInt + b.y, z := d.z.toInt * r.ir0.toInt + b.z }

/-- The flags of the interpolation: those of its two steps (40_arith_core.md R119). -/
def blendFlag (sf lm : Bool) (r : RegFile) (b : Vec3 Int) (f : FlagName) : Bool :=
  lanesFlag sf false (farSums r b) f || lanesFlag sf lm (blendSums sf r b) f

/-- The light of a vector times a colour, `(c << 4) * IR<i>` (44_lighting_color.md R181 stage D, R188). -/
def colorSums (c : Color) (ir : Vec3 Half) : Vec3 Int :=
  { x := (c.r.toNat : Int) * 16 * ir.x.toInt, y := (c.g.toNat : Int) * 16 * ir.y.toInt
    z := (c.b.toNat : Int) * 16 * ir.z.toInt }

/-- `IR<i> << 12` (44_lighting_color.md R181 stage C, R189). -/
def irSums (ir : Vec3 Half) : Vec3 Int :=
  { x := ir.x.toInt * 4096, y := ir.y.toInt * 4096, z := ir.z.toInt * 4096 }

/-- `colour << 16` (44_lighting_color.md R186). -/
def byteSums (c : Color) : Vec3 Int :=
  { x := (c.r.toNat : Int) * 65536, y := (c.g.toNat : Int) * 65536, z := (c.b.toNat : Int) * 65536 }

/-! The normal-colour datapath, document order (44_lighting_color.md R181). -/

/-- Stage A: `L·V[n] + BK`, as lane sums. -/
def stageASums (r : RegFile) (n : Fin 3) : Vec3 Int := rowSums r.l (vertexVec n r) (transVec .bk r)

/-- Stage A: the `IR1..3` it leaves. -/
def stageAIr (sf lm : Bool) (r : RegFile) (n : Fin 3) : Vec3 Half := irsOf lm (macsOf sf (stageASums r n))

/-- Stage B: `LR·IR + FC`, as lane sums. -/
def stageBSums (sf lm : Bool) (r : RegFile) (n : Fin 3) : Vec3 Int :=
  rowSums r.lr (signedVec (stageAIr sf lm r n)) (transVec .fc r)

/-- Stage B: the `IR1..3` it leaves. -/
def stageBIr (sf lm : Bool) (r : RegFile) (n : Fin 3) : Vec3 Half := irsOf lm (macsOf sf (stageBSums sf lm r n))

/-- Stage C, with the blend: the `IR1..3` it leaves. -/
def stageCIr (sf lm : Bool) (r : RegFile) (n : Fin 3) (cue : Bool) : Vec3 Half :=
  if cue then irsOf lm (macsOf sf (blendSums sf r (irSums (stageBIr sf lm r n)))) else stageBIr sf lm r n

/-- Stage D: the final `MAC1..3` of a vertex. -/
def ncMac (sf lm : Bool) (r : RegFile) (n : Fin 3) (cue : Bool) : Vec3 Word :=
  macsOf sf (colorSums r.rgbc (stageCIr sf lm r n cue))

/-- The flags of stages A to E for a vertex. -/
def ncFlag (sf lm : Bool) (r : RegFile) (n : Fin 3) (cue : Bool) (f : FlagName) : Bool :=
  rowsFlag sf lm r.l (vertexVec n r) (transVec .bk r) f
    || rowsFlag sf lm r.lr (signedVec (stageAIr sf lm r n)) (transVec .fc r) f
    || (cue && blendFlag sf lm r (irSums (stageBIr sf lm r n)) f)
    || lanesFlag sf lm (colorSums r.rgbc (stageCIr sf lm r n cue)) f
    || pushedFlag (ncMac sf lm r n cue) f

/-- The console's order, stage B: the `IR1..3` left by `LR·IR + BK` on the light `L·V[n]` (44_lighting_color.md R190). -/
def consoleIr (sf lm : Bool) (r : RegFile) (n : Fin 3) : Vec3 Half :=
  irsOf lm (macsOf sf (rowSums r.lr
    (signedVec (irsOf lm (macsOf sf (rowSums r.l (vertexVec n r) { x := 0, y := 0, z := 0 })))) (transVec .bk r)))

/-- The console's order: the final `MAC1..3` of a vertex (44_lighting_color.md R190). -/
def consoleMac (sf lm : Bool) (r : RegFile) (n : Fin 3) (cue : Bool) : Vec3 Word :=
  let b := colorSums r.rgbc (consoleIr sf lm r n)
  macsOf sf (if cue then blendSums sf r b else b)

/-- The flags of the console's order (44_lighting_color.md R190). -/
def consoleFlag (sf lm : Bool) (r : RegFile) (n : Fin 3) (cue : Bool) (f : FlagName) : Bool :=
  let light := irsOf lm (macsOf sf (rowSums r.l (vertexVec n r) { x := 0, y := 0, z := 0 }))
  let b := colorSums r.rgbc (consoleIr sf lm r n)
  rowsFlag sf lm r.l (vertexVec n r) { x := 0, y := 0, z := 0 } f
    || rowsFlag sf lm r.lr (signedVec light) (transVec .bk r) f
    || (if cue then blendFlag sf lm r b f else lanesFlag sf lm b f)
    || pushedFlag (consoleMac sf lm r n cue) f

/-! The depth cue of a colour (44_lighting_color.md R186). -/

/-- The final `MAC1..3` of a blend of base `b` (40_arith_core.md R119). -/
def blendMac (sf : Bool) (r : RegFile) (b : Vec3 Int) : Vec3 Word := macsOf sf (blendSums sf r b)

/-- The flags of a blend of base `b` and the push of its result. -/
def blendPushFlag (sf lm : Bool) (r : RegFile) (b : Vec3 Int) (f : FlagName) : Bool :=
  blendFlag sf lm r b f || pushedFlag (blendMac sf r b) f

/-! The projection of a vertex (42_projection.md R161). -/

/-- Step 1: `RT·V[n] + TR`, as lane sums. -/
def projSums (r : RegFile) (n : Fin 3) : Vec3 Int := rowSums r.rt (vertexVec n r) (transVec .tr r)

/-- Step 1: `MAC1..3`. -/
def projMac (sf : Bool) (r : RegFile) (n : Fin 3) : Vec3 Word := macsOf sf (projSums r n)

/-- Step 1: `IR1..3`. -/
def projIr (sf lm : Bool) (r : RegFile) (n : Fin 3) : Vec3 Half := irsOf lm (projMac sf r n)

/-- Step 2: the 44-bit lane-3 sum shifted by 12, whatever `sf` is. -/
def projZ (r : RegFile) (n : Fin 3) : Int := ((projSums r n).z.bmod (2 ^ 44)) / 4096

/-- Step 2: the depth pushed. -/
def projDepth (r : RegFile) (n : Fin 3) : Half := BitVec.ofInt 16 (saturate 0 65535 (projZ r n))

/-- Step 3: the quotient. -/
def projQuotient (r : RegFile) (n : Fin 3) : Int := ((divide r.h (projDepth r n)).1.toNat : Int)

/-- Step 4: the screen X sum. -/
def projX (sf lm : Bool) (r : RegFile) (n : Fin 3) : Int :=
  projQuotient r n * (projIr sf lm r n).x.toInt + r.ofx.toInt

/-- Step 5: the screen Y sum. -/
def projY (sf lm : Bool) (r : RegFile) (n : Fin 3) : Int :=
  projQuotient r n * (projIr sf lm r n).y.toInt + r.ofy.toInt

/-- Step 6: the screen position pushed. -/
def projScreen (sf lm : Bool) (r : RegFile) (n : Fin 3) : ScreenXY :=
  { x := BitVec.ofInt 16 (saturate (-1024) 1023 (projX sf lm r n / 65536))
    y := BitVec.ofInt 16 (saturate (-1024) 1023 (projY sf lm r n / 65536)) }

/-- Step 7: the depth-cue sum. -/
def cueSum (r : RegFile) (n : Fin 3) : Int := projQuotient r n * r.dqa.toInt + r.dqb.toInt

/-- The flags of steps 1 to 6. -/
def projFlag (sf lm : Bool) (r : RegFile) (n : Fin 3) (f : FlagName) : Bool :=
  rowsFlag sf lm r.rt (vertexVec n r) (transVec .tr r) f ||
    match f with
    | .szOtzSat => outside 0 65535 (projZ r n)
    | .divOvf => decide (2 * (projDepth r n).toNat ≤ r.h.toNat)
    | .mac0Pos => above32 (projX sf lm r n) || above32 (projY sf lm r n)
    | .mac0Neg => below32 (projX sf lm r n) || below32 (projY sf lm r n)
    | .sx2Sat => outside (-1024) 1023 (projX sf lm r n / 65536)
    | .sy2Sat => outside (-1024) 1023 (projY sf lm r n / 65536)
    | _ => false

/-- The flags of step 7. -/
def cueFlag (r : RegFile) (n : Fin 3) : FlagName → Bool
  | .mac0Pos => above32 (cueSum r n)
  | .mac0Neg => below32 (cueSum r n)
  | .ir0Sat => outside 0 4096 (cueSum r n / 4096)
  | _ => false

/-- `IR0` after step 7. -/
def cueIr0 (r : RegFile) (n : Fin 3) : Half := BitVec.ofInt 16 (saturate 0 4096 (cueSum r n / 4096))

/-! The scalar instructions (45_utility.md R205 to R207). -/

/-- `x0*y1 + x1*y2 + x2*y0 - x0*y2 - x1*y0 - x2*y1` (45_utility.md R205). -/
def clipSum (r : RegFile) : Int :=
  r.sxy0.x.toInt * r.sxy1.y.toInt + r.sxy1.x.toInt * r.sxy2.y.toInt + r.sxy2.x.toInt * r.sxy0.y.toInt
    - r.sxy0.x.toInt * r.sxy2.y.toInt - r.sxy1.x.toInt * r.sxy0.y.toInt - r.sxy2.x.toInt * r.sxy1.y.toInt

/-- The flags of a `MAC0` write (40_arith_core.md R103). -/
def mac0Flag (v : Int) : FlagName → Bool
  | .mac0Pos => above32 v
  | .mac0Neg => below32 v
  | _ => false

/-- `OTZ` for a `MAC0` sum: from the stored 32-bit value (40_arith_core.md R115). -/
def otzOf (v : Int) : Half := BitVec.ofInt 16 (saturate 0 65535 ((v.bmod (2 ^ 32)) / 4096))

/-- The flags of an average-Z sum (45_utility.md R206, R207). -/
def averageFlag (v : Int) (f : FlagName) : Bool :=
  mac0Flag v f || (decide (f = .szOtzSat) && outside 0 65535 ((v.bmod (2 ^ 32)) / 4096))

/-! Groups of instructions. -/

/-- The `lm` bit of an instruction that writes `IR1..3` (30_encoding.md R84, R86). -/
def lmOf : Instr → Option Bool
  | .rtps _ lm => some lm
  | .nclip => none
  | .op _ lm => some lm
  | .dcps _ lm => some lm
  | .intpl _ lm => some lm
  | .mvmva _ lm _ _ _ => some lm
  | .ncds _ lm => some lm
  | .ncdt _ lm => some lm
  | .nccs _ lm => some lm
  | .sqr _ lm => some lm
  | .dcpl _ lm => some lm
  | .dcpt _ lm => some lm
  | .avsz3 => none
  | .avsz4 => none
  | .rtpt _ lm => some lm
  | .gpf _ lm => some lm
  | .gpl _ lm => some lm
  | .ncct _ lm => some lm

/-- The eighteen opcode values of 30_encoding.md R86. -/
def opcodeValues : List Nat :=
  [0x01, 0x06, 0x0C, 0x10, 0x11, 0x12, 0x13, 0x16, 0x1B, 0x28, 0x29, 0x2A, 0x2D, 0x2E, 0x30, 0x3D, 0x3E, 0x3F]

/-- The indices whose `READ` a `WRITE` of index `i` may change: `i` itself, and the views and second names of what lies behind
it (20_memory.md R66). -/
def readersOf (i : Nat) : List Nat :=
  if i = 9 ∨ i = 10 ∨ i = 11 then [i, 28, 29]
  else if i = 14 ∨ i = 15 then [14, 15]
  else if i = 28 then [9, 10, 11, 28, 29]
  else if i = 29 ∨ i = 31 then []
  else if i = 30 then [30, 31]
  else [i]

/-- What a `READ` of an index returns after a `WRITE` of `w` to it, given what it returned before
(41_register_access.md R154). -/
def readAfterWrite (i : Nat) (w before : Word) : Word :=
  if i = 1 ∨ i = 3 ∨ i = 5 ∨ i = 8 ∨ i = 36 ∨ i = 44 ∨ i = 52 ∨ i = 58 ∨ i = 59 ∨ i = 61 ∨ i = 62 then
    (w.setWidth 16).signExtend 32
  else if i = 7 ∨ (16 ≤ i ∧ i ≤ 19) then (w.setWidth 16).setWidth 32
  else if i = 9 ∨ i = 10 ∨ i = 11 then BitVec.ofInt 32 (saturate (-32768) 32767 w.toInt)
  else if i = 28 then w &&& 0x7FFF
  else if i = 29 ∨ i = 31 then before
  else if i = 63 then
    (if w &&& 0x7F87E000 = 0 then 0 else 0x80000000) ||| (w &&& 0x7FFFF000)
  else w

end Sys2Proof.Safety
end

