-- ==== Sys2Proof/Certificates/Slice0/Obligations.lean ====
section
/-! DEFINITION. The statements about the machine, one `def Obligations.<Name> : Prop` each; their vocabulary is
Sys2Proof/Safety.lean. Nothing here is proved. -/

open Sys2Proof Sys2Proof.Machine Sys2Proof.Safety

/-! ### Encoding -/

/-- 30_encoding.md R81, R86, R91: decoding the word of an instruction gives it back, whatever its modifiers and selectors.
Rests on the spec's decisions D9, D10 (log 7). -/
def Obligations.EncodeDecodeRoundTrip : Prop :=
  ∀ i : Instr, decode (encode i) = .ok i

/-- 30_encoding.md R87: "two command words that agree in bits 19:13, 10 and 5:0 execute identically", and for an opcode other
than 12 (hex) bits 18:13 are ignored as well.
Rests on the spec's decision D9 (log 7). -/
def Obligations.IgnoredBitsExecuteIdentically : Prop :=
  (∀ (w w' : Word) (s : State), w &&& 0x000FE43F = w' &&& 0x000FE43F → command w s = command w' s) ∧
  (∀ (w w' : Word) (s : State), w &&& 0x3F ≠ 0x12 → w &&& 0x0008043F = w' &&& 0x0008043F → command w s = command w' s)

/-- 30_encoding.md R94, derived from R91: the worked encodings, decoded and encoded.
Rests on the spec's decisions D9, D10, D33 (log 7). -/
def Obligations.WorkedEncodingsDecode : Prop :=
  encode (.rtps true false) = 0x00080001 ∧ encode (.rtpt true false) = 0x00080030 ∧ encode .nclip = 0x00000006 ∧
  encode (.sqr true false) = 0x00080028 ∧
  encode (.mvmva true false (.mat .l) .ir (.vec .bk)) = 0x000BA012 ∧
  encode (.ncds true true) = 0x00080413 ∧ encode .avsz3 = 0x0000002D ∧
  decode 0x00080001 = .ok (.rtps true false) ∧ decode 0x00080030 = .ok (.rtpt true false) ∧
  decode 0x00000006 = .ok .nclip ∧ decode 0x00080028 = .ok (.sqr true false) ∧
  decode 0x000BA012 = .ok (.mvmva true false (.mat .l) .ir (.vec .bk)) ∧
  decode 0x00080413 = .ok (.ncds true true) ∧ decode 0x0000002D = .ok .avsz3 ∧
  decode 0x4A180001 = .ok (.rtps true false) ∧ decode 0x00000000 = .error (.unrecognised 0)

/-- 30_encoding.md R82, R85, R86: what every opcode value decodes to, `sf` from bit 19, `lm` from bit 10, the selectors from
bits 18:17, 16:15 and 14:13 in the listing order; every other opcode value is unrecognised.
Rests on the spec's decisions D9, D10, D33 (log 7). -/
def Obligations.OpcodeTableDecodes : Prop :=
  ∀ w : Word,
    let sf := w.getLsbD 19
    let lm := w.getLsbD 10
    let op := w.toNat % 64
    let mx := w.toNat / 2 ^ 17 % 4
    let vx := w.toNat / 2 ^ 15 % 4
    let tx := w.toNat / 2 ^ 13 % 4
    (op = 0x01 → decode w = .ok (.rtps sf lm)) ∧ (op = 0x06 → decode w = .ok .nclip) ∧
    (op = 0x0C → decode w = .ok (.op sf lm)) ∧ (op = 0x10 → decode w = .ok (.dcps sf lm)) ∧
    (op = 0x11 → decode w = .ok (.intpl sf lm)) ∧
    (op = 0x12 → decode w = .ok (.mvmva sf lm
      (if mx = 0 then .mat .rt else if mx = 1 then .mat .l else if mx = 2 then .mat .lr else .reserved)
      (if vx = 0 then .vertex 0 else if vx = 1 then .vertex 1 else if vx = 2 then .vertex 2 else .ir)
      (if tx = 0 then .vec .tr else if tx = 1 then .vec .bk else if tx = 2 then .vec .fc else .zero))) ∧
    (op = 0x13 → decode w = .ok (.ncds sf lm)) ∧ (op = 0x16 → decode w = .ok (.ncdt sf lm)) ∧
    (op = 0x1B → decode w = .ok (.nccs sf lm)) ∧ (op = 0x28 → decode w = .ok (.sqr sf lm)) ∧
    (op = 0x29 → decode w = .ok (.dcpl sf lm)) ∧ (op = 0x2A → decode w = .ok (.dcpt sf lm)) ∧
    (op = 0x2D → decode w = .ok .avsz3) ∧ (op = 0x2E → decode w = .ok .avsz4) ∧
    (op = 0x30 → decode w = .ok (.rtpt sf lm)) ∧ (op = 0x3D → decode w = .ok (.gpf sf lm)) ∧
    (op = 0x3E → decode w = .ok (.gpl sf lm)) ∧ (op = 0x3F → decode w = .ok (.ncct sf lm)) ∧
    (op ∉ opcodeValues → decode w = .error (.unrecognised (w.setWidth 6)))

/-! ### Transactions and the step -/

/-- 30_encoding.md R83: a `COMMAND` clears `FLAG`, then runs the instruction its word decodes to and answers true, or does
nothing and answers false; the error bit, step 4, is computed on every `READ` (10_state.md R46).
Rests on the spec's decision D12 for an unrecognised opcode (log 10), and on the model's choice of how transactions stand in
`State` (log 2). -/
def Obligations.StepRunsDecodedInstruction : Prop :=
  ∀ (s : State) (cmd : Word) (rest : List Transaction), s.pending = .command cmd :: rest →
    let s0 : State := { s with regs := { s.regs with flag := 0 }, pending := rest }
    step s =
      match decode cmd with
      | .ok i =>
        match exec i s0 with
        | .next t => .next { t with response := .recognised true }
        | .fault e => .fault e
        | .refused e => .refused e
      | .error _ => .next { s0 with response := .recognised false }

/-- 30_encoding.md R88, 60_exceptions.md R221: an opcode value outside the table clears `FLAG`, changes no other register and
answers false.
Rests on the spec's decision D12 (log 10). -/
def Obligations.UnrecognisedCommandClearsFlagOnly : Prop :=
  ∀ (s : State) (cmd : Word) (rest : List Transaction),
    s.pending = .command cmd :: rest → cmd.toNat % 64 ∉ opcodeValues →
    step s = .next { regs := { s.regs with flag := 0 }, pending := rest, response := .recognised false }

/-- 41_register_access.md R130, R155: `READ` returns the word of its index and changes no register; `WRITE` answers nothing
and leaves the register file `writeIndex` gives. -/
def Obligations.StepPerformsReadAndWrite : Prop :=
  (∀ (s : State) (idx : BitVec 6) (rest : List Transaction), s.pending = .read idx :: rest →
    step s = .next { s with pending := rest, response := .word (readIndex idx s.regs) }) ∧
  (∀ (s : State) (idx : BitVec 6) (w : Word) (rest : List Transaction), s.pending = .write idx w :: rest →
    step s = .next { regs := writeIndex idx w s.regs, pending := rest, response := .written })

/-- 20_memory.md R69: a script of accepted transactions runs without a stop, one transaction a step in issue order, none
merged, dropped or repeated; what follows is the run from the state left. -/
def Obligations.AcceptedScriptRunsInOrder : Prop :=
  ∀ (k : Nat) (s : State), scriptAccepted s = true →
    ∃ t : State, Host.Core.run Sys2Proof.core k s = .next t ∧ t.pending = s.pending.drop k ∧ scriptAccepted t = true ∧
      ∀ j : Nat, Host.Core.run Sys2Proof.core (k + j) s = Host.Core.run Sys2Proof.core j t

/-- 60_exceptions.md R224, 43_mvmva.md R172: the one input on which a step stops is a command with opcode 12 (hex) and
`mx = 3`; it is refused, and every other step answers a next state.
Rests on the spec's decision D26 (log 3), and on the model's choice of the idle step (log 2). -/
def Obligations.OnlyReservedMatrixStops : Prop :=
  ∀ s : State,
    (∀ cmd rest, s.pending = .command cmd :: rest → cmd.toNat % 64 = 0x12 → cmd.toNat / 2 ^ 17 % 4 = 3 →
      step s = .refused .reservedMatrix) ∧
    ((∀ cmd rest, s.pending = .command cmd :: rest → ¬(cmd.toNat % 64 = 0x12 ∧ cmd.toNat / 2 ^ 17 % 4 = 3)) →
      ∃ t, step s = .next t)

/-- 60_exceptions.md R232: the log entry of each transaction, and that one step logs the transaction it takes.
Rests on the spec's decision D31 (log 9). -/
def Obligations.LogListsTheTransactionTaken : Prop :=
  (∀ (s u : State) (x : Transaction) (rest : List Transaction), s.pending = x :: rest → step s = .next u →
    trace 1 s = [logEntry x s.regs]) ∧
  (∀ (r : RegFile) (idx : BitVec 6), logEntry (.read idx) r = { mode := .read, index := idx, data := readIndex idx r }) ∧
  (∀ (r : RegFile) (idx : BitVec 6) (w : Word), logEntry (.write idx w) r = { mode := .write, index := idx, data := w }) ∧
  (∀ (r : RegFile) (cmd : Word), logEntry (.command cmd) r = { mode := .func, index := cmd.setWidth 6, data := cmd })

/-- The model's choice of reset values (log 1; 70_reset_and_hazards.md R240 gives zero as the default of a parameter): every
index reads 0 but `LZCR`, which reads 32, and no transaction is pending (log 2). -/
def Obligations.ResetReadsZero : Prop :=
  (∀ idx : BitVec 6, readIndex idx State.reset.regs = if idx = 31 then 32 else 0) ∧
    State.reset.pending = [] ∧ State.reset.response = .nothing

/-! ### Register access -/

/-- 10_state.md R21, 41_register_access.md R131 to R156: the register behind every index, and the bits of the written word each
field takes.
Rests on the spec's decisions D2, D3, D6, D8 (logs 7, 8). -/
def Obligations.WriteLoadsFieldsOfIndex : Prop :=
  ∀ (w : Word) (r : RegFile),
    let lo : Half := w.setWidth 16
    let hi : Half := (w >>> 16).setWidth 16
    let c : Color := { r := w.setWidth 8, g := (w >>> 8).setWidth 8, b := (w >>> 16).setWidth 8, code := (w >>> 24).setWidth 8 }
    (writeIndex 0 w r = { r with v0 := { r.v0 with x := lo, y := hi } } ∧ writeIndex 1 w r = { r with v0 := { r.v0 with z := lo } } ∧
      writeIndex 2 w r = { r with v1 := { r.v1 with x := lo, y := hi } } ∧ writeIndex 3 w r = { r with v1 := { r.v1 with z := lo } } ∧
      writeIndex 4 w r = { r with v2 := { r.v2 with x := lo, y := hi } } ∧ writeIndex 5 w r = { r with v2 := { r.v2 with z := lo } }) ∧
    (writeIndex 6 w r = { r with rgbc := c } ∧ writeIndex 7 w r = { r with otz := lo } ∧ writeIndex 8 w r = { r with ir0 := lo }) ∧
    (writeIndex 12 w r = { r with sxy0 := { x := lo, y := hi } } ∧ writeIndex 13 w r = { r with sxy1 := { x := lo, y := hi } } ∧
      writeIndex 14 w r = { r with sxy2 := { x := lo, y := hi } }) ∧
    (writeIndex 16 w r = { r with sz0 := lo } ∧ writeIndex 17 w r = { r with sz1 := lo } ∧
      writeIndex 18 w r = { r with sz2 := lo } ∧ writeIndex 19 w r = { r with sz3 := lo }) ∧
    (writeIndex 20 w r = { r with rgb0 := c } ∧ writeIndex 21 w r = { r with rgb1 := c } ∧ writeIndex 22 w r = { r with rgb2 := c }) ∧
    (writeIndex 23 w r = { r with res1 := w } ∧ writeIndex 24 w r = { r with mac0 := w } ∧
      writeIndex 25 w r = { r with mac := { r.mac with x := w } } ∧ writeIndex 26 w r = { r with mac := { r.mac with y := w } } ∧
      writeIndex 27 w r = { r with mac := { r.mac with z := w } } ∧ writeIndex 30 w r = { r with lzcs := w } ∧
      writeIndex 31 w r = r) ∧
    (let rt := r.rt
     writeIndex 32 w r = { r with rt := { rt with row1 := { rt.row1 with x := lo, y := hi } } } ∧
      writeIndex 33 w r = { r with rt := { rt with row1 := { rt.row1 with z := lo }, row2 := { rt.row2 with x := hi } } } ∧
      writeIndex 34 w r = { r with rt := { rt with row2 := { rt.row2 with y := lo, z := hi } } } ∧
      writeIndex 35 w r = { r with rt := { rt with row3 := { rt.row3 with x := lo, y := hi } } } ∧
      writeIndex 36 w r = { r with rt := { rt with row3 := { rt.row3 with z := lo } } }) ∧
    (let l := r.l
     writeIndex 40 w r = { r with l := { l with row1 := { l.row1 with x := lo, y := hi } } } ∧
      writeIndex 41 w r = { r with l := { l with row1 := { l.row1 with z := lo }, row2 := { l.row2 with x := hi } } } ∧
      writeIndex 42 w r = { r with l := { l with row2 := { l.row2 with y := lo, z := hi } } } ∧
      writeIndex 43 w r = { r with l := { l with row3 := { l.row3 with x := lo, y := hi } } } ∧
      writeIndex 44 w r = { r with l := { l with row3 := { l.row3 with z := lo } } }) ∧
    (let lr := r.lr
     writeIndex 48 w r = { r with lr := { lr with row1 := { lr.row1 with x := lo, y := hi } } } ∧
      writeIndex 49 w r = { r with lr := { lr with row1 := { lr.row1 with z := lo }, row2 := { lr.row2 with x := hi } } } ∧
      writeIndex 50 w r = { r with lr := { lr with row2 := { lr.row2 with y := lo, z := hi } } } ∧
      writeIndex 51 w r = { r with lr := { lr with row3 := { lr.row3 with x := lo, y := hi } } } ∧
      writeIndex 52 w r = { r with lr := { lr with row3 := { lr.row3 with z := lo } } }) ∧
    (writeIndex 37 w r = { r with tr := { r.tr with x := w } } ∧ writeIndex 38 w r = { r with tr := { r.tr with y := w } } ∧
      writeIndex 39 w r = { r with tr := { r.tr with z := w } } ∧ writeIndex 45 w r = { r with bk := { r.bk with x := w } } ∧
      writeIndex 46 w r = { r with bk := { r.bk with y := w } } ∧ writeIndex 47 w r = { r with bk := { r.bk with z := w } } ∧
      writeIndex 53 w r = { r with fc := { r.fc with x := w } } ∧ writeIndex 54 w r = { r with fc := { r.fc with y := w } } ∧
      writeIndex 55 w r = { r with fc := { r.fc with z := w } }) ∧
    (writeIndex 56 w r = { r with ofx := w } ∧ writeIndex 57 w r = { r with ofy := w } ∧ writeIndex 59 w r = { r with dqa := lo } ∧
      writeIndex 60 w r = { r with dqb := w } ∧ writeIndex 61 w r = { r with zsf3 := lo } ∧
      writeIndex 62 w r = { r with zsf4 := lo } ∧ writeIndex 63 w r = { r with flag := (w >>> 12).setWidth 19 })

/-- 41_register_access.md R154: what `READ` of an index returns after a `WRITE` to it, for every index.
Rests on the spec's decisions D3, D5, D6, D8 (logs 7, 8). -/
def Obligations.ReadAfterWriteReturns : Prop :=
  ∀ (idx : BitVec 6) (w : Word) (r : RegFile),
    readIndex idx (writeIndex idx w r) = readAfterWrite idx.toNat w (readIndex idx r)

/-- 20_memory.md R66: a `WRITE` changes what `READ` returns only at its own index and at the views and second names of what
lies behind it.
Rests on the spec's decisions D4, D6 (log 8). -/
def Obligations.WriteChangesOnlyItsReaders : Prop :=
  ∀ (idx j : BitVec 6) (w : Word) (r : RegFile), j.toNat ∉ readersOf idx.toNat →
    readIndex j (writeIndex idx w r) = readIndex j r

/-- 20_memory.md R66: writing the same word twice leaves the same registers as writing it once. -/
def Obligations.WriteIsIdempotent : Prop :=
  ∀ (idx : BitVec 6) (w : Word) (r : RegFile), writeIndex idx w (writeIndex idx w r) = writeIndex idx w r

/-- 41_register_access.md R137: a bare write to `IR1..3` saturates the signed 32-bit value to `[-0x8000, 0x7fff]`, changes no
other register and sets no flag.
Rests on the spec's decision D5 (log 8). -/
def Obligations.BareWriteSaturatesIr : Prop :=
  ∀ (w : Word) (r : RegFile),
    let x : Half := BitVec.ofInt 16 (saturate (-32768) 32767 w.toInt)
    x.toInt = saturate (-32768) 32767 w.toInt ∧
    writeIndex 9 w r = { r with ir := { r.ir with x := x } } ∧ writeIndex 10 w r = { r with ir := { r.ir with y := x } } ∧
      writeIndex 11 w r = { r with ir := { r.ir with z := x } }

/-- 41_register_access.md R139: index 15 is a second name of index 14, for `READ` and for `WRITE`.
Rests on the spec's decision D4 (log 8). -/
def Obligations.Sxy3IsSxy2 : Prop :=
  ∀ (w : Word) (r : RegFile), readIndex 15 r = readIndex 14 r ∧ writeIndex 15 w r = writeIndex 14 w r ∧
    writeIndex 15 w r = { r with sxy2 := { x := w.setWidth 16, y := (w >>> 16).setWidth 16 } }

/-- 41_register_access.md R143: `IRGB` and `ORGB` read the 15-bit view of `IR1..3`; a write to `IRGB` loads them, a write to
`ORGB` has no effect.
Rests on the spec's decision D6 (log 8). -/
def Obligations.IrgbIsAView : Prop :=
  ∀ (w : Word) (r : RegFile),
    let c : Half → Int := fun x => saturate 0 31 (x.toInt / 128)
    readIndex 28 r = BitVec.ofInt 32 (c r.ir.z * 1024 + c r.ir.y * 32 + c r.ir.x) ∧ readIndex 29 r = readIndex 28 r ∧
    writeIndex 28 w r = { r with ir := { x := BitVec.ofNat 16 (w.toNat % 32 * 128)
                                         y := BitVec.ofNat 16 (w.toNat / 32 % 32 * 128)
                                         z := BitVec.ofNat 16 (w.toNat / 1024 % 32 * 128) } } ∧
    writeIndex 29 w r = r

/-- 41_register_access.md R150: `H` is written from the low half and read sign-extended, although it is used unsigned.
Rests on the spec's decision D3 (log 8). -/
def Obligations.HReadsSignExtended : Prop :=
  ∀ (w : Word) (r : RegFile), writeIndex 58 w r = { r with h := w.setWidth 16 } ∧
    (readIndex 58 r).toInt = r.h.toInt

/-- 40_arith_core.md R110: `LZCR` reads a count in 1..32: of the leading zeros of a non-negative `LZCS`, so that the number
lies between the two powers of two, and of the leading ones of a negative one.
Rests on the spec's decision D7 (log 10). -/
def Obligations.LeadingCountInRange : Prop :=
  (∀ r : RegFile, readIndex 31 r = BitVec.ofNat 32 (lzcount r.lzcs)) ∧
  ∀ n : Word, 1 ≤ lzcount n ∧ lzcount n ≤ 32 ∧ lzcount 0 = 32 ∧
    (0 < n.toInt → 2 ^ (31 - lzcount n) ≤ n.toNat ∧ n.toNat < 2 ^ (32 - lzcount n)) ∧
    (n.toInt < 0 → lzcount n = lzcount (~~~n))

/-! ### FLAG -/

/-- 10_state.md R46, R43: bit 31 of a `READ` of `FLAG` is the OR of bits 30..23 and 18..13, bits 11..0 are zero, bits 30..12
are the stored conditions.
Rests on the spec's decision D8 (log 7). -/
def Obligations.FlagWordErrorBit : Prop :=
  ∀ r : RegFile,
    let w := readIndex 63 r
    w.getLsbD 31 = (decide (w &&& 0x7F800000 ≠ 0) || decide (w &&& 0x0007E000 ≠ 0)) ∧
      w &&& 0x00000FFF = 0 ∧ (w >>> 12).setWidth 19 = r.flag

/-- 10_state.md R45, R46: the word each single condition reads as, with the error bit where the condition is in the error
subset.
Rests on the spec's decision D8 (log 7). -/
def Obligations.FlagMapWords : Prop :=
  (∀ f, flagWord (flagMask f) =
    match f with
    | .macPos .one => 0xC0000000
    | .macPos .two => 0xA0000000
    | .macPos .three => 0x90000000
    | .macNeg .one => 0x88000000
    | .macNeg .two => 0x84000000
    | .macNeg .three => 0x82000000
    | .irSat .one => 0x81000000
    | .irSat .two => 0x80800000
    | .irSat .three => 0x00400000
    | .colorSat .one => 0x00200000
    | .colorSat .two => 0x00100000
    | .colorSat .three => 0x00080000
    | .szOtzSat => 0x80040000
    | .divOvf => 0x80020000
    | .mac0Pos => 0x80010000
    | .mac0Neg => 0x80008000
    | .sx2Sat => 0x80004000
    | .sy2Sat => 0x80002000
    | .ir0Sat => 0x00001000) ∧
  ∀ (f : FlagName) (fl : BitVec 19), flagAt fl f = decide (flagMask f &&& fl = flagMask f)

/-- 40_arith_core.md R120 (f), 00_scope.md R11: no instruction depends on the previous contents of `FLAG`, and flags only
accumulate: from any stored flags, an instruction leaves them joined with what it raises from an empty `FLAG`. -/
def Obligations.FlagsOnlyAccumulate : Prop :=
  ∀ (i : Instr) (s t : State) (fl : BitVec 19),
    exec i (s.withRegs { s.regs with flag := 0 }) = .next t →
    exec i (s.withRegs { s.regs with flag := fl }) = .next (t.withRegs { t.regs with flag := fl ||| t.regs.flag })

/-- 10_state.md R47: "stale flags never leak into a new computation": a command's outcome does not depend on the stored flags
before it. -/
def Obligations.StaleFlagsNeverLeak : Prop :=
  ∀ (cmd : Word) (s : State) (fl : BitVec 19), command cmd (s.withRegs { s.regs with flag := fl }) = command cmd s

/-! ### Frames and whole-machine rules -/

/-- 10_state.md R22, R23, R29, R32 to R42 ("Written only by the host"): no instruction changes an input register or the host
interface. -/
def Obligations.InstructionsKeepHostRegisters : Prop :=
  ∀ (i : Instr) (s t : State), exec i s = .next t →
    t.regs.toInputRegs = s.regs.toInputRegs ∧ t.pending = s.pending ∧ t.response = s.response

/-- Frame of `sqr`, `op`, `mvmva` (45_utility.md R203, R204; 43_mvmva.md R170): only `MAC1..3`, `IR1..3` and `FLAG` change,
in `FLAG` only lane flags, and every other index reads as before. -/
def Obligations.FrameOfLaneInstructions : Prop :=
  ∀ (sf lm : Bool) (mx : MatrixSel) (vx : VectorSel) (tx : TransSel) (i : Instr) (s t : State),
    i ∈ [Instr.sqr sf lm, .op sf lm, .mvmva sf lm mx vx tx] → exec i s = .next t →
    t = s.withRegs { s.regs with mac := t.regs.mac, ir := t.regs.ir, flag := t.regs.flag } ∧
    (∀ f, (∀ j, f ≠ .macPos j ∧ f ≠ .macNeg j ∧ f ≠ .irSat j) → flagAt t.regs.flag f = flagAt s.regs.flag f) ∧
    (∀ f, flagAt s.regs.flag f = true → flagAt t.regs.flag f = true) ∧
    ∀ idx : BitVec 6, idx.toNat ∉ [9, 10, 11, 25, 26, 27, 28, 29, 63] → readIndex idx t.regs = readIndex idx s.regs

/-- Frame of the ten colour instructions (44_lighting_color.md R180; 45_utility.md R201, R202): only `MAC1..3`, `IR1..3`, the
RGB FIFO and `FLAG` change, in `FLAG` only lane and colour flags, and every other index reads as before.
Rests on the spec's decision D22 (log 10). -/
def Obligations.FrameOfColourInstructions : Prop :=
  ∀ (sf lm : Bool) (i : Instr) (s t : State),
    i ∈ [Instr.ncds sf lm, .nccs sf lm, .ncdt sf lm, .ncct sf lm, .dcps sf lm, .dcpt sf lm, .dcpl sf lm, .intpl sf lm,
      .gpf sf lm, .gpl sf lm] → exec i s = .next t →
    t = s.withRegs { s.regs with mac := t.regs.mac, ir := t.regs.ir, rgb0 := t.regs.rgb0, rgb1 := t.regs.rgb1
                                 rgb2 := t.regs.rgb2, flag := t.regs.flag } ∧
    (∀ f, (∀ j, f ≠ .macPos j ∧ f ≠ .macNeg j ∧ f ≠ .irSat j ∧ f ≠ .colorSat j) →
      flagAt t.regs.flag f = flagAt s.regs.flag f) ∧
    (∀ f, flagAt s.regs.flag f = true → flagAt t.regs.flag f = true) ∧
    ∀ idx : BitVec 6, idx.toNat ∉ [9, 10, 11, 20, 21, 22, 25, 26, 27, 28, 29, 63] →
      readIndex idx t.regs = readIndex idx s.regs

/-- Frame of `nclip`, `avsz3`, `avsz4` (45_utility.md R205 to R207): `nclip` changes `MAC0` and its two flags, the average-Z
instructions `MAC0`, `OTZ` and their three flags; every other index reads as before.
Rests on the spec's decision D27 (log 10). -/
def Obligations.FrameOfScalarInstructions : Prop :=
  (∀ s t : State, exec .nclip s = .next t →
    t = s.withRegs { s.regs with mac0 := t.regs.mac0, flag := t.regs.flag } ∧
    (∀ f, f ≠ .mac0Pos → f ≠ .mac0Neg → flagAt t.regs.flag f = flagAt s.regs.flag f) ∧
    ∀ idx : BitVec 6, idx.toNat ∉ [24, 63] → readIndex idx t.regs = readIndex idx s.regs) ∧
  (∀ (i : Instr) (s t : State), i ∈ [Instr.avsz3, .avsz4] → exec i s = .next t →
    t = s.withRegs { s.regs with mac0 := t.regs.mac0, otz := t.regs.otz, flag := t.regs.flag } ∧
    (∀ f, f ≠ .mac0Pos → f ≠ .mac0Neg → f ≠ .szOtzSat → flagAt t.regs.flag f = flagAt s.regs.flag f) ∧
    ∀ idx : BitVec 6, idx.toNat ∉ [7, 24, 63] → readIndex idx t.regs = readIndex idx s.regs)

/-- Frame of `rtps`, `rtpt` (42_projection.md R161, R162): only `MAC0..3`, `IR0..3`, the SZ and SXY FIFOs and `FLAG` change,
no colour flag, and every other index reads as before.
Rests on the spec's decision D18 (log 5). -/
def Obligations.FrameOfProjection : Prop :=
  ∀ (sf lm : Bool) (i : Instr) (s t : State), i ∈ [Instr.rtps sf lm, .rtpt sf lm] → exec i s = .next t →
    t = s.withRegs { s.regs with mac0 := t.regs.mac0, mac := t.regs.mac, ir0 := t.regs.ir0, ir := t.regs.ir
                                 sz0 := t.regs.sz0, sz1 := t.regs.sz1, sz2 := t.regs.sz2, sz3 := t.regs.sz3
                                 sxy0 := t.regs.sxy0, sxy1 := t.regs.sxy1, sxy2 := t.regs.sxy2, flag := t.regs.flag } ∧
    (∀ j, flagAt t.regs.flag (.colorSat j) = flagAt s.regs.flag (.colorSat j)) ∧
    (∀ f, flagAt s.regs.flag f = true → flagAt t.regs.flag f = true) ∧
    ∀ idx : BitVec 6, idx.toNat ∉ [8, 9, 10, 11, 12, 13, 14, 15, 16, 17, 18, 19, 24, 25, 26, 27, 28, 29, 63] →
      readIndex idx t.regs = readIndex idx s.regs

/-- 10_state.md R48 (b): after any instruction that writes `IR1..3` with `lm` set, each is in `[0, 0x7fff]`. (With `lm` clear
the range is that of the 16-bit register.) -/
def Obligations.LmKeepsIrNonNegative : Prop :=
  ∀ (i : Instr) (s t : State), lmOf i = some true → exec i s = .next t →
    ∀ j : Lane, 0 ≤ (t.regs.ir.get j).toInt ∧ (t.regs.ir.get j).toInt ≤ 0x7fff

/-- 10_state.md R48 (e): the screen range of the SXY FIFO is kept by every step, as long as the host's script writes no slot
of it.
Rests on the spec's decision D20 (log 10). -/
def Obligations.ScreenRangeKeptByEveryStep : Prop :=
  ∀ s t : State, ScreenInv s → step s = .next t → ScreenInv t

/-- The reset state is in the screen range (log 1: the reset values are the model's choice). -/
def Obligations.ScreenRangeAtReset : Prop := ScreenInv State.reset

/-- 45_utility.md R205 (b): on positions in the screen range `nclip` stays below `2^24` and raises no flag. -/
def Obligations.NclipInScreenRangeRaisesNothing : Prop :=
  ∀ s : State, inScreenRange s.regs.sxy0 = true → inScreenRange s.regs.sxy1 = true → inScreenRange s.regs.sxy2 = true →
    exec .nclip s = .next (s.withRegs { s.regs with mac0 := BitVec.ofInt 32 (clipSum s.regs) }) ∧
      -2 ^ 24 < clipSum s.regs ∧ clipSum s.regs < 2 ^ 24

/-- 10_state.md R48 (a), 40_arith_core.md R116 to R118: the FIFOs hold the most recent four depths, three positions and three
colours in push order.
Rests on the spec's decisions D20, D22 (log 10). -/
def Obligations.FifosHoldMostRecentPushes : Prop :=
  (∀ (a b c d : Int) (r : RegFile),
    let r' := pushScreenZ d (pushScreenZ c (pushScreenZ b (pushScreenZ a r)))
    ((r'.sz0.toNat : Int), (r'.sz1.toNat : Int), (r'.sz2.toNat : Int), (r'.sz3.toNat : Int))
      = (saturate 0 65535 a, saturate 0 65535 b, saturate 0 65535 c, saturate 0 65535 d)) ∧
  (∀ (a b c : Int × Int) (r : RegFile),
    let r' := pushScreenXY c.1 c.2 (pushScreenXY b.1 b.2 (pushScreenXY a.1 a.2 r))
    (r'.sxy0.x.toInt, r'.sxy0.y.toInt) = (saturate (-1024) 1023 a.1, saturate (-1024) 1023 a.2) ∧
    (r'.sxy1.x.toInt, r'.sxy1.y.toInt) = (saturate (-1024) 1023 b.1, saturate (-1024) 1023 b.2) ∧
    (r'.sxy2.x.toInt, r'.sxy2.y.toInt) = (saturate (-1024) 1023 c.1, saturate (-1024) 1023 c.2)) ∧
  (∀ (a b c : Vec3 Word) (r : RegFile),
    let r' := pushColor { pushColor { pushColor { r with mac := a } with mac := b } with mac := c }
    (r'.rgb0, r'.rgb1, r'.rgb2) = (pushed a r.rgbc.code, pushed b r.rgbc.code, pushed c r.rgbc.code))

/-! ### Division -/

/-- 40_arith_core.md R111, R113: `DIV_OVF` is raised exactly when `h >= 2 * sz3`, then the quotient is `0x1ffff`; `divide(h, 0)`
saturates for all `h`; otherwise the 17-bit quotient is the whole of the algorithm's result; and the worked values.
Rests on the spec's decision D17 (log 6). -/
def Obligations.DivideSaturatesOrApproximates : Prop :=
  (∀ h z : Half, (divide h z).2 = decide (2 * z.toNat ≤ h.toNat)) ∧
  (∀ h z : Half, 2 * z.toNat ≤ h.toNat → (divide h z).1 = 0x1ffff) ∧
  (∀ h : Half, divide h 0 = (0x1ffff, true)) ∧
  (∀ h z : Half, h.toNat < 2 * z.toNat →
    ((divide h z).1.toNat : Int) = reciprocalQuotient h z ∧ 0 ≤ reciprocalQuotient h z ∧ reciprocalQuotient h z ≤ 0x1ffff) ∧
  divide 0 1 = (0, false) ∧ divide 1 1 = (0x10000, false) ∧ divide 0x200 0x400 = (0x8000, false) ∧
  divide 100 300 = (0x5555, false) ∧ divide 0x1234 0x5678 = (0x35E5, false) ∧ divide 512 200 = (0x1ffff, true) ∧
  divide 399 200 = (0x1FEB8, false) ∧ divide 0xFE3F 0x7F20 = (0x1ffff, false) ∧ divide 0xF015 0x780B = (0x1ffff, false) ∧
  divide 0xffff 0xffff = (0xffff, false) ∧ divide 0xffff 0x8000 = (0x1fffe, false)

/-! ### What each instruction does -/

/-- 42_projection.md R161: `rtps` projects `V[0]`: lanes, depth, position, depth cue, and exactly its flags; with
RTPS_DEPTH_CUE = false the last step is skipped, `IR0` stays and `MAC0` is the Y sum.
Rests on the spec's decisions D13, D17, D18, D19 (logs 5, 6, 10). -/
def Obligations.RtpsResult : Prop :=
  (∀ (sf lm : Bool) (s : State),
    let r := s.regs
    Completes (.rtps sf lm) s
      { r with mac := projMac sf r 0, ir := projIr sf lm r 0
               sz0 := r.sz1, sz1 := r.sz2, sz2 := r.sz3, sz3 := projDepth r 0
               sxy0 := r.sxy1, sxy1 := r.sxy2, sxy2 := projScreen sf lm r 0
               mac0 := BitVec.ofInt 32 (cueSum r 0), ir0 := cueIr0 r 0 }
      (fun f => projFlag sf lm r 0 f || cueFlag r 0 f)) ∧
  (∀ (sf lm : Bool) (r : RegFile), ∃ fl,
    rtp { params with rtpsDepthCue := false } sf lm 0 true r =
      { r with mac := projMac sf r 0, ir := projIr sf lm r 0
               sz0 := r.sz1, sz1 := r.sz2, sz2 := r.sz3, sz3 := projDepth r 0
               sxy0 := r.sxy1, sxy1 := r.sxy2, sxy2 := projScreen sf lm r 0
               mac0 := BitVec.ofInt 32 (projY sf lm r 0), flag := fl } ∧
      ∀ f, flagAt fl f = (flagAt r.flag f || projFlag sf lm r 0 f))

/-- 42_projection.md R162: `rtpt` projects the three vertices in turn, accumulates their flags, and makes `IR0` and `MAC0`
from `V[2]` alone.
Rests on the spec's decisions D13, D17, D18, D19 (logs 5, 6, 10). -/
def Obligations.RtptResult : Prop :=
  ∀ (sf lm : Bool) (s : State),
    let r := s.regs
    Completes (.rtpt sf lm) s
      { r with mac := projMac sf r 2, ir := projIr sf lm r 2
               sz0 := r.sz3, sz1 := projDepth r 0, sz2 := projDepth r 1, sz3 := projDepth r 2
               sxy0 := projScreen sf lm r 0, sxy1 := projScreen sf lm r 1, sxy2 := projScreen sf lm r 2
               mac0 := BitVec.ofInt 32 (cueSum r 2), ir0 := cueIr0 r 2 }
      (fun f => projFlag sf lm r 0 f || projFlag sf lm r 1 f || projFlag sf lm r 2 f || cueFlag r 2 f)

/-- 43_mvmva.md R170: `mvmva`, opcode 12 (hex), stores `M·v + T` of the selected operands, read before any lane is written, with
the partial-sum flags; with `mx = 3` it is refused (R172).
Rests on the spec's decisions D13, D14, D15, D26, D33 (logs 3, 7, 10). -/
def Obligations.MvmvaResult : Prop :=
  (∀ w : Word, w.toNat % 64 = 0x12 →
    let mx := w.toNat / 2 ^ 17 % 4
    let vx := w.toNat / 2 ^ 15 % 4
    let tx := w.toNat / 2 ^ 13 % 4
    decode w = .ok (.mvmva (w.getLsbD 19) (w.getLsbD 10)
      (if mx = 0 then .mat .rt else if mx = 1 then .mat .l else if mx = 2 then .mat .lr else .reserved)
      (if vx = 0 then .vertex 0 else if vx = 1 then .vertex 1 else if vx = 2 then .vertex 2 else .ir)
      (if tx = 0 then .vec .tr else if tx = 1 then .vec .bk else if tx = 2 then .vec .fc else .zero))) ∧
  (∀ (sf lm : Bool) (m : MatrixName) (vx : VectorSel) (tx : TransSel) (s : State),
    let r := s.regs
    let a := match m with | .rt => r.rt | .l => r.l | .lr => r.lr
    let v := match vx with
      | .vertex 0 => signedVec r.v0 | .vertex 1 => signedVec r.v1 | .vertex 2 => signedVec r.v2 | .ir => signedVec r.ir
    let t := match tx with
      | .vec .tr => signedVec r.tr | .vec .bk => signedVec r.bk | .vec .fc => signedVec r.fc
      | .zero => { x := 0, y := 0, z := 0 }
    let mac := macsOf sf (rowSums a v t)
    Completes (.mvmva sf lm (.mat m) vx tx) s { r with mac := mac, ir := irsOf lm mac } (rowsFlag sf lm a v t)) ∧
  (∀ (sf lm : Bool) (vx : VectorSel) (tx : TransSel) (s : State),
    exec (.mvmva sf lm .reserved vx tx) s = .refused .reservedMatrix)

/-- 43_mvmva.md R172: a command whose opcode is 12 (hex) and whose `mx` is 3 is refused; under a configuration that supplies
RESERVED_MATRIX it runs rule R170 with that matrix.
Rests on the spec's decision D26 (log 3). -/
def Obligations.ReservedMatrixRefusedOrConfigured : Prop :=
  (∀ (cmd : Word) (s : State), cmd.toNat % 64 = 0x12 → cmd.toNat / 2 ^ 17 % 4 = 3 →
    command cmd s = .refused .reservedMatrix) ∧
  (∀ (g : RegFile → Mat3) (sf lm : Bool) (vx : VectorSel) (tx : TransSel) (s : State), ∃ fl,
    let mac := macsOf sf (rowSums (g s.regs) (vectorOf vx s.regs) (transOf tx s.regs))
    mvmva { params with reservedMatrix := some g } sf lm .reserved vx tx s =
      .next (s.withRegs { s.regs with mac := mac, ir := irsOf lm mac, flag := fl }) ∧
    ∀ f, flagAt fl f =
      (flagAt s.regs.flag f || rowsFlag sf lm (g s.regs) (vectorOf vx s.regs) (transOf tx s.regs) f))

/-- 43_mvmva.md R171, derived from R170 and R107: the matrix stage of `rtps` is `mvmva` with `(0, 0, 0)`: `MAC1..3`, `IR1..3` and the lane flags; the two
matrix stages of the normal-colour datapath on vertex `n` (44_lighting_color.md R181) are `mvmva` with `(1, n, 1)`, then
`(2, 3, 2)`. Rests on the spec's decision D21, LIGHT_PIPELINE = document (log 4). -/
def Obligations.MatrixStagesAreMvmva : Prop :=
  (∀ (sf lm : Bool) (s t u : State), exec (.rtps sf lm) s = .next t →
    exec (.mvmva sf lm (.mat .rt) (.vertex 0) (.vec .tr)) s = .next u →
    t.regs.mac = u.regs.mac ∧ t.regs.ir = u.regs.ir ∧
      ∀ j, flagAt t.regs.flag (.macPos j) = flagAt u.regs.flag (.macPos j) ∧
        flagAt t.regs.flag (.macNeg j) = flagAt u.regs.flag (.macNeg j) ∧
        flagAt t.regs.flag (.irSat j) = flagAt u.regs.flag (.irSat j)) ∧
  (∀ (sf lm : Bool) (n : Fin 3) (cue : Bool) (s u w : State),
    exec (.mvmva sf lm (.mat .l) (.vertex n) (.vec .bk)) s = .next u →
    exec (.mvmva sf lm (.mat .lr) .ir (.vec .fc)) u = .next w →
    nc params sf lm n cue s.regs =
      pushColor (colmul sf lm (if cue then interpolate sf lm (irBase w.regs) w.regs else w.regs)))

/-- 44_lighting_color.md R182: `ncds` lights `V[0]` in the document's stage order, with the blend.
Rests on the spec's decisions D13, D21, D22, D23 (logs 4, 10). -/
def Obligations.NcdsResult : Prop :=
  ∀ (sf lm : Bool) (s : State),
    let r := s.regs
    let mac := ncMac sf lm r 0 true
    Completes (.ncds sf lm) s
      { r with mac := mac, ir := irsOf lm mac, rgb0 := r.rgb1, rgb1 := r.rgb2, rgb2 := pushed mac r.rgbc.code }
      (ncFlag sf lm r 0 true)

/-- 44_lighting_color.md R183: `nccs` lights `V[0]` without the blend; `IR0` has no influence.
Rests on the spec's decisions D13, D21, D22 (logs 4, 10). -/
def Obligations.NccsResult : Prop :=
  (∀ (sf lm : Bool) (s : State),
    let r := s.regs
    let mac := ncMac sf lm r 0 false
    Completes (.nccs sf lm) s
      { r with mac := mac, ir := irsOf lm mac, rgb0 := r.rgb1, rgb1 := r.rgb2, rgb2 := pushed mac r.rgbc.code }
      (ncFlag sf lm r 0 false)) ∧
  (∀ (sf lm : Bool) (r : RegFile) (x : Half), ncMac sf lm { r with ir0 := x } 0 false = ncMac sf lm r 0 false ∧
    ncFlag sf lm { r with ir0 := x } 0 false = ncFlag sf lm r 0 false)

/-- 44_lighting_color.md R184: `ncdt` applies `ncds` to the three vertices; the FIFO holds the three colours in order.
Rests on the spec's decisions D13, D21, D22, D23 (logs 4, 10). -/
def Obligations.NcdtResult : Prop :=
  ∀ (sf lm : Bool) (s : State),
    let r := s.regs
    let mac := fun n : Fin 3 => ncMac sf lm r n true
    Completes (.ncdt sf lm) s
      { r with mac := mac 2, ir := irsOf lm (mac 2), rgb0 := pushed (mac 0) r.rgbc.code
               rgb1 := pushed (mac 1) r.rgbc.code, rgb2 := pushed (mac 2) r.rgbc.code }
      (fun f => ncFlag sf lm r 0 true f || ncFlag sf lm r 1 true f || ncFlag sf lm r 2 true f)

/-- 44_lighting_color.md R185: `ncct` applies `nccs` to the three vertices.
Rests on the spec's decisions D13, D21, D22 (logs 4, 10). -/
def Obligations.NcctResult : Prop :=
  ∀ (sf lm : Bool) (s : State),
    let r := s.regs
    let mac := fun n : Fin 3 => ncMac sf lm r n false
    Completes (.ncct sf lm) s
      { r with mac := mac 2, ir := irsOf lm (mac 2), rgb0 := pushed (mac 0) r.rgbc.code
               rgb1 := pushed (mac 1) r.rgbc.code, rgb2 := pushed (mac 2) r.rgbc.code }
      (fun f => ncFlag sf lm r 0 false f || ncFlag sf lm r 1 false f || ncFlag sf lm r 2 false f)

/-- 44_lighting_color.md R190: under LIGHT_PIPELINE = console the datapath adds the background in the second product, then
multiplies by the colour, then blends; its flags accumulate.
Rests on the spec's decision D21 (log 4). -/
def Obligations.ConsoleOrderResult : Prop :=
  ∀ (sf lm : Bool) (n : Fin 3) (cue : Bool) (r : RegFile), ∃ fl,
    let mac := consoleMac sf lm r n cue
    nc { params with lightPipeline := .console } sf lm n cue r =
      { r with mac := mac, ir := irsOf lm mac, rgb0 := r.rgb1, rgb1 := r.rgb2, rgb2 := pushed mac r.rgbc.code, flag := fl } ∧
    ∀ f, flagAt fl f = (flagAt r.flag f || consoleFlag sf lm r n cue f)

/-- 44_lighting_color.md R186: `dcps` blends the current colour toward the far colour and pushes it.
Rests on the spec's decisions D22, D23, D24 (log 10). -/
def Obligations.DcpsResult : Prop :=
  ∀ (sf lm : Bool) (s : State),
    let r := s.regs
    let mac := blendMac sf r (byteSums r.rgbc)
    Completes (.dcps sf lm) s
      { r with mac := mac, ir := irsOf lm mac, rgb0 := r.rgb1, rgb1 := r.rgb2, rgb2 := pushed mac r.rgbc.code }
      (blendPushFlag sf lm r (byteSums r.rgbc))

/-- 44_lighting_color.md R187: `dcpt` replaces the three FIFO colours, in order, by their blends; each code byte is
`RGBC.code`.
Rests on the spec's decisions D22, D23, D24 (log 10). -/
def Obligations.DcptResult : Prop :=
  ∀ (sf lm : Bool) (s : State),
    let r := s.regs
    let mac := fun c : Color => blendMac sf r (byteSums c)
    Completes (.dcpt sf lm) s
      { r with mac := mac r.rgb2, ir := irsOf lm (mac r.rgb2), rgb0 := pushed (mac r.rgb0) r.rgbc.code
               rgb1 := pushed (mac r.rgb1) r.rgbc.code, rgb2 := pushed (mac r.rgb2) r.rgbc.code }
      (fun f => blendPushFlag sf lm r (byteSums r.rgb0) f || blendPushFlag sf lm r (byteSums r.rgb1) f
        || blendPushFlag sf lm r (byteSums r.rgb2) f)

/-- 44_lighting_color.md R188: `dcpl` blends the light in `IR1..3` times the current colour.
Rests on the spec's decisions D22, D23, D24 (log 10). -/
def Obligations.DcplResult : Prop :=
  ∀ (sf lm : Bool) (s : State),
    let r := s.regs
    let mac := blendMac sf r (colorSums r.rgbc r.ir)
    Completes (.dcpl sf lm) s
      { r with mac := mac, ir := irsOf lm mac, rgb0 := r.rgb1, rgb1 := r.rgb2, rgb2 := pushed mac r.rgbc.code }
      (blendPushFlag sf lm r (colorSums r.rgbc r.ir))

/-- 44_lighting_color.md R189: `intpl` blends `IR1..3` toward the far colour and pushes the result.
Rests on the spec's decisions D22, D23 (log 10). -/
def Obligations.IntplResult : Prop :=
  ∀ (sf lm : Bool) (s : State),
    let r := s.regs
    let mac := blendMac sf r (irSums r.ir)
    Completes (.intpl sf lm) s
      { r with mac := mac, ir := irsOf lm mac, rgb0 := r.rgb1, rgb1 := r.rgb2, rgb2 := pushed mac r.rgbc.code }
      (blendPushFlag sf lm r (irSums r.ir))

/-- 45_utility.md R201: `gpf` multiplies `IR1..3` by `IR0` and pushes; no 44-bit flag is ever raised.
Rests on the spec's decisions D22, D36 (log 10). -/
def Obligations.GpfResult : Prop :=
  ∀ (sf lm : Bool) (s : State),
    let r := s.regs
    let p : Vec3 Int := { x := r.ir0.toInt * r.ir.x.toInt, y := r.ir0.toInt * r.ir.y.toInt, z := r.ir0.toInt * r.ir.z.toInt }
    let mac := macsOf sf p
    Completes (.gpf sf lm) s
      { r with mac := mac, ir := irsOf lm mac, rgb0 := r.rgb1, rgb1 := r.rgb2, rgb2 := pushed mac r.rgbc.code }
      (fun f => lanesFlag sf lm p f || pushedFlag mac f) ∧
    ∀ j, lanesFlag sf lm p (.macPos j) = false ∧ lanesFlag sf lm p (.macNeg j) = false

/-- 45_utility.md R202: `gpl` adds the product to the old `MAC`, scaled back by `12 * sf`, and pushes.
Rests on the spec's decisions D22, D36 (log 10). -/
def Obligations.GplResult : Prop :=
  ∀ (sf lm : Bool) (s : State),
    let r := s.regs
    let k : Int := if sf then 4096 else 1
    let p : Vec3 Int :=
      { x := r.mac.x.toInt * k + r.ir0.toInt * r.ir.x.toInt
        y := r.mac.y.toInt * k + r.ir0.toInt * r.ir.y.toInt
        z := r.mac.z.toInt * k + r.ir0.toInt * r.ir.z.toInt }
    let mac := macsOf sf p
    Completes (.gpl sf lm) s
      { r with mac := mac, ir := irsOf lm mac, rgb0 := r.rgb1, rgb1 := r.rgb2, rgb2 := pushed mac r.rgbc.code }
      (fun f => lanesFlag sf lm p f || pushedFlag mac f)

/-- 45_utility.md R203: `sqr`, opcode 28 (hex), squares each lane of `IR`; no 44-bit flag is ever raised and `lm` has no visible
effect. -/
def Obligations.SqrResult : Prop :=
  (∀ w : Word, w.toNat % 64 = 0x28 → decode w = .ok (.sqr (w.getLsbD 19) (w.getLsbD 10))) ∧
  ∀ (sf lm : Bool) (s : State),
    let r := s.regs
    let p : Vec3 Int := { x := r.ir.x.toInt ^ 2, y := r.ir.y.toInt ^ 2, z := r.ir.z.toInt ^ 2 }
    let mac := macsOf sf p
    Completes (.sqr sf lm) s { r with mac := mac, ir := irsOf lm mac } (lanesFlag sf lm p) ∧
    (∀ j, lanesFlag sf lm p (.macPos j) = false ∧ lanesFlag sf lm p (.macNeg j) = false) ∧
    exec (.sqr sf true) s = exec (.sqr sf false) s

/-- 45_utility.md R204: `op` is the cross product of the diagonal of `RT` with `IR1..3`; no 44-bit flag is ever raised.
Rests on the spec's decision D25 (log 10). -/
def Obligations.OpResult : Prop :=
  ∀ (sf lm : Bool) (s : State),
    let r := s.regs
    let d1 := r.rt.row1.x.toInt
    let d2 := r.rt.row2.y.toInt
    let d3 := r.rt.row3.z.toInt
    let p : Vec3 Int :=
      { x := r.ir.z.toInt * d2 - r.ir.y.toInt * d3
        y := r.ir.x.toInt * d3 - r.ir.z.toInt * d1
        z := r.ir.y.toInt * d1 - r.ir.x.toInt * d2 }
    let mac := macsOf sf p
    Completes (.op sf lm) s { r with mac := mac, ir := irsOf lm mac } (lanesFlag sf lm p) ∧
    ∀ j, lanesFlag sf lm p (.macPos j) = false ∧ lanesFlag sf lm p (.macNeg j) = false

/-- 45_utility.md R205: `nclip` leaves the low 32 bits of the cross product in `MAC0` and flags a product outside 32 bits.
Rests on the spec's decision D35 (log 10). -/
def Obligations.NclipResult : Prop :=
  ∀ s : State,
    Completes .nclip s { s.regs with mac0 := BitVec.ofInt 32 (clipSum s.regs) } (mac0Flag (clipSum s.regs))

/-- 45_utility.md R205 (a): collinear or coincident points give `MAC0 = 0` and no flag. -/
def Obligations.NclipOfCollinearPointsIsZero : Prop :=
  ∀ (s : State) (a b dx dy : Int),
    s.regs.sxy1.x.toInt = s.regs.sxy0.x.toInt + a * dx → s.regs.sxy1.y.toInt = s.regs.sxy0.y.toInt + a * dy →
    s.regs.sxy2.x.toInt = s.regs.sxy0.x.toInt + b * dx → s.regs.sxy2.y.toInt = s.regs.sxy0.y.toInt + b * dy →
    exec .nclip s = .next (s.withRegs { s.regs with mac0 := 0 })

/-- 45_utility.md R206: `avsz3` scales the sum of `SZ[1..3]` by `ZSF3`; `OTZ` comes from the stored 32-bit `MAC0`.
Rests on the spec's decision D27 (log 10). -/
def Obligations.Avsz3Result : Prop :=
  ∀ s : State,
    let r := s.regs
    let v : Int := r.zsf3.toInt * ((r.sz1.toNat + r.sz2.toNat + r.sz3.toNat : Nat) : Int)
    Completes .avsz3 s { r with mac0 := BitVec.ofInt 32 v, otz := otzOf v } (averageFlag v)

/-- 45_utility.md R207: `avsz4` scales the sum of `SZ[0..3]` by `ZSF4`.
Rests on the spec's decision D27 (log 10). -/
def Obligations.Avsz4Result : Prop :=
  ∀ s : State,
    let r := s.regs
    let v : Int := r.zsf4.toInt * ((r.sz0.toNat + r.sz1.toNat + r.sz2.toNat + r.sz3.toNat : Nat) : Int)
    Completes .avsz4 s { r with mac0 := BitVec.ofInt 32 v, otz := otzOf v } (averageFlag v)

/-! ### Registers without effect, and the parameters -/

/-- 10_state.md R29: `RES1` "always reads as last-written value but has no hardware effect", whatever index REGMAP gives it. -/
def Obligations.Res1HasNoHardwareEffect : Prop :=
  (∀ (i : Instr) (s t : State) (x : Word), exec i s = .next t →
    t.regs.res1 = s.regs.res1 ∧
    exec i (s.withRegs { s.regs with res1 := x }) = .next (t.withRegs { t.regs with res1 := x })) ∧
  (∀ (i : Instr) (s : State) (e : Refusal) (x : Word), exec i s = .refused e →
    exec i (s.withRegs { s.regs with res1 := x }) = .refused e) ∧
  (∀ (c : Config RegFile) (idx : BitVec 6) (w : Word) (r : RegFile), c.regMap idx = .res1 →
    writeIndexWith c idx w r = { r with res1 := w } ∧ readIndexWith c idx r = r.res1) ∧
  (∀ (c : Config RegFile) (idx : BitVec 6) (w x : Word) (r : RegFile), c.regMap idx ≠ .res1 →
    (writeIndexWith c idx w r).res1 = r.res1 ∧
    writeIndexWith c idx w { r with res1 := x } = { writeIndexWith c idx w r with res1 := x } ∧
    readIndexWith c idx { r with res1 := x } = readIndexWith c idx r)

/-- 10_state.md R24: `OTZ` is written by `avsz3` and `avsz4` through `setOtz` and by the host, and read by no instruction. -/
def Obligations.OtzWrittenByAverageZAndHostOnly : Prop :=
  (∀ (i : Instr) (s t : State) (x : Half), exec i s = .next t →
    if i ∈ [Instr.avsz3, .avsz4] then exec i (s.withRegs { s.regs with otz := x }) = .next t
    else t.regs.otz = s.regs.otz ∧
      exec i (s.withRegs { s.regs with otz := x }) = .next (t.withRegs { t.regs with otz := x })) ∧
  (∀ (i : Instr) (s : State) (e : Refusal) (x : Half), exec i s = .refused e →
    exec i (s.withRegs { s.regs with otz := x }) = .refused e) ∧
  (∀ (i : Instr) (s : State), i ∈ [Instr.avsz3, .avsz4] →
    ∃ r : RegFile, r.otz = s.regs.otz ∧ exec i s = .next (s.withRegs (setOtz r))) ∧
  (∀ (c : Config RegFile) (idx : BitVec 6) (r : RegFile), c.regMap idx = .otz →
    (∀ w, ∃ x : Half, writeIndexWith c idx w r = { r with otz := x }) ∧
    ∀ x : Half, ∃ w, writeIndexWith c idx w r = { r with otz := x }) ∧
  (∀ (c : Config RegFile) (idx : BitVec 6) (w : Word) (r : RegFile), c.regMap idx ≠ .otz →
    (writeIndexWith c idx w r).otz = r.otz)

/-- 00_scope.md R5: CMDFIELDS, OPCODES and FLAGMAP are parameters; under every legal value of them a command word decodes to
the instruction it encodes, any other opcode is unrecognised, and the word of `FLAG` carries the conditions and the error
bit. Which values are legal is the model's reading (log 7). -/
def Obligations.LegalMapsRoundTrip : Prop :=
  (∀ (e : Encoding) (i : Instr), LegalEncoding e → decodeWith e (encodeWith e i) = .ok i) ∧
  (∀ (e : Encoding) (cmd : Word), (∀ o, e.opcodes o ≠ cmd.extractLsb' e.cmdFields.opcode 6) →
    decodeWith e cmd = .error (.unrecognised (cmd.extractLsb' e.cmdFields.opcode 6))) ∧
  (∀ (m : FlagMap) (flag : BitVec 19), LegalFlagMap m →
    let w := flagWordWith m flag
    (∀ f, w.getLsbD (m.bit f) = flagAt flag f) ∧ w.getLsbD 31 = decide (w &&& m.errorMask ≠ 0) ∧
      loadFlagsWith m w = flag)
end

