-- ==== Sys2Proof/Laws/Arith.lean ====
section
/-! SUPPORT. Lemmas about the integer helpers: the conversions, the clamp, the flag words, the leading-zero count and the
reciprocal table. -/

namespace Sys2Proof.Laws

open Sys2Proof Sys2Proof.Machine Sys2Proof.Safety

/-- Wrapping to 44 bits is the balanced remainder. -/
theorem wrap44_eq_bmod (v : Int) : wrap44 v = v.bmod (2 ^ 44) := by
  unfold wrap44 sext Int.bmod
  simp only [show ((2 ^ 44 : Nat) : Int) = 17592186044416 by norm_num,
    show ((2 ^ (44 - 1) : Nat) : Int) = 8796093022208 by norm_num]
  split_ifs <;> omega

/-- A 44-bit wrapped value stays in the 44-bit range. -/
theorem wrap44_range (v : Int) : -2 ^ 43 ≤ wrap44 v ∧ wrap44 v ≤ 2 ^ 43 - 1 := by
  unfold wrap44 sext
  simp only [show ((2 ^ 44 : Nat) : Int) = 17592186044416 by norm_num,
    show ((2 ^ (44 - 1) : Nat) : Int) = 8796093022208 by norm_num]
  split_ifs <;> constructor <;> norm_num <;> omega

/-- Wrapping changes a value by a multiple of `2^44`. -/
theorem wrap44_eq_add (v : Int) : ∃ k : Int, wrap44 v = v + k * 17592186044416 := by
  unfold wrap44 sext
  simp only [show ((2 ^ 44 : Nat) : Int) = 17592186044416 by norm_num,
    show ((2 ^ (44 - 1) : Nat) : Int) = 8796093022208 by norm_num]
  split_ifs
  · exact ⟨-(v / 17592186044416) - 1, by omega⟩
  · exact ⟨-(v / 17592186044416), by omega⟩

/-- The stored 32 bits ignore multiples of `2^32`. -/
theorem ofInt32_add_mul (v k : Int) : BitVec.ofInt 32 (v + k * 4294967296) = BitVec.ofInt 32 v := by
  apply BitVec.eq_of_toInt_eq
  simp only [BitVec.toInt_ofInt, Int.bmod]
  norm_num

/-- Two sums that agree up to a multiple of `2^44` leave the same `MAC<i>`. -/
theorem macOf_add_mul (sf : Bool) (v k : Int) : macOf sf (v + k * 17592186044416) = macOf sf v := by
  cases sf
  · have := ofInt32_add_mul v (k * 4096)
    simp only [macOf, Bool.false_eq_true, if_false] at *
    rw [← this]
    congr 1
    ring
  · have := ofInt32_add_mul (v / 4096) k
    simp only [macOf, if_true] at *
    rw [← this]
    congr 1
    omega

/-- The wrap to 44 bits cannot change `MAC<i>` (40_arith_core.md R101). -/
theorem accumulate_eq_macOf (sf : Bool) (v : Int) : accumulate sf v = macOf sf v := by
  obtain ⟨k, hk⟩ := wrap44_eq_add v
  have h : accumulate sf v = macOf sf (wrap44 v) := by
    cases sf <;> simp [accumulate, macOf, trunc32, asr, sfShift]
  rw [h, hk, macOf_add_mul]

/-- The machine's clamp is saturation. -/
theorem clip_eq_saturate {lo hi : Int} (h : lo ≤ hi) (v : Int) : clip v hi lo = saturate lo hi v := by
  unfold clip saturate
  split_ifs <;> omega

/-- The machine's clamp raises its flag exactly when saturation changes the value. -/
theorem clips_eq_outside {lo hi : Int} (h : lo ≤ hi) (v : Int) : clips v hi lo = outside lo hi v := by
  unfold clips outside saturate
  rw [← Bool.decide_or]
  apply decide_eq_decide.mpr
  constructor <;> intro h' <;> omega

/-- A saturated value is in its range. -/
theorem saturate_range {lo hi : Int} (h : lo ≤ hi) (v : Int) : lo ≤ saturate lo hi v ∧ saturate lo hi v ≤ hi := by
  unfold saturate
  omega

/-- A condition of a union of flag words is in one of them. -/
@[simp] theorem flagAt_or (a b : BitVec 19) (f : FlagName) : flagAt (a ||| b) f = (flagAt a f || flagAt b f) := by
  simp [flagAt]

/-- The empty flag word has no condition. -/
@[simp] theorem flagAt_zero (f : FlagName) : flagAt 0#19 f = false := by simp [flagAt]

/-- FLAGMAP gives different conditions different bits (10_state.md R45). -/
theorem flagAt_flagMask (f g : FlagName) : flagAt (flagMask g) f = decide (f = g) := by
  rcases f with ⟨_ | _ | _⟩ | ⟨_ | _ | _⟩ | ⟨_ | _ | _⟩ | ⟨_ | _ | _⟩ | _ | _ | _ | _ | _ | _ | _ <;>
  rcases g with ⟨_ | _ | _⟩ | ⟨_ | _ | _⟩ | ⟨_ | _ | _⟩ | ⟨_ | _ | _⟩ | _ | _ | _ | _ | _ | _ | _ <;> rfl

/-- A condition raised under a test. -/
theorem flagAt_flagIf (c : Bool) (f g : FlagName) : flagAt (flagIf c g) f = (c && decide (f = g)) := by
  cases c <;> simp [flagIf, flagAt_flagMask]

/-- The flags of the 44-bit check. -/
theorem flagAt_chk44 (i : Lane) (v : Int) (f : FlagName) :
    flagAt (chk44Flags i v) f = ((above44 v && decide (f = .macPos i)) || (below44 v && decide (f = .macNeg i))) := by
  simp only [chk44Flags, overflowFlags, flagAt_or, flagAt_flagIf, above44, below44]
  norm_num

/-- The flags of the 32-bit check are those of a `MAC0` write. -/
theorem flagAt_mac0Flags (v : Int) (f : FlagName) : flagAt (mac0Flags v) f = mac0Flag v f := by
  simp only [mac0Flags, overflowFlags, flagAt_or, flagAt_flagIf, mac0Flag, above32, below32]
  cases f <;> norm_num <;> simp

/-- The flag of a clamp. -/
theorem flagAt_clipFlags {lo hi : Int} (h : lo ≤ hi) (v : Int) (f g : FlagName) :
    flagAt (clipFlags v hi lo g) f = (outside lo hi v && decide (f = g)) := by
  rw [clipFlags, flagAt_flagIf, clips_eq_outside h]

/-- A wrapped value passes the 44-bit check. -/
theorem wrap44_in_range (v : Int) : above44 (wrap44 v) = false ∧ below44 (wrap44 v) = false := by
  have := wrap44_range v
  simp only [above44, below44, decide_eq_false_iff_not]
  omega

/-- Every entry of the reciprocal table fits eight bits (40_arith_core.md R112). -/
theorem unr_le (i : Nat) : unr i ≤ 255 := by
  have : 0x40000 / (i + 0x100) ≤ 0x40000 / 0x100 := Nat.div_le_div_left (by omega) (by omega)
  unfold unr
  omega

/-- The leading zeros of a number below `2^w`, in closed form. -/
theorem leadingZeros_spec (w n : Nat) (h : n < 2 ^ w) :
    leadingZeros w n ≤ w ∧ n < 2 ^ (w - leadingZeros w n) ∧ (0 < n → 2 ^ (w - 1 - leadingZeros w n) ≤ n)
      ∧ (0 < n → leadingZeros w n < w) := by
  induction w with
  | zero => simp at h; simp [leadingZeros, h]
  | succ w ih =>
    unfold leadingZeros
    split
    · rename_i hb
      have : 2 ^ w ≤ n := Nat.ge_two_pow_of_testBit hb
      simp
      exact ⟨h, fun _ => this⟩
    · rename_i hb
      have hlt : n < 2 ^ w := by
        by_contra hn
        apply hb
        rw [Nat.testBit_eq_decide_div_mod_eq]
        have : n / 2 ^ w = 1 := Nat.div_eq_of_lt_le (by omega) (by rw [pow_succ] at h; omega)
        simp [this]
      obtain ⟨h1, h2, h3, h4⟩ := ih hlt
      refine ⟨by omega, ?_, ?_, fun hp => by have := h4 hp; omega⟩
      · rwa [show w + 1 - (1 + leadingZeros w n) = w - leadingZeros w n by omega]
      · rwa [show w + 1 - 1 - (1 + leadingZeros w n) = w - 1 - leadingZeros w n by omega]

end Sys2Proof.Laws
end

