-- ==== Sys2Proof/Laws/Config.lean ====
section
/-! SUPPORT. The configuration: the machine of the default configuration is the model, the default maps are legal, and what
every legal layout, opcode map and FLAGMAP gives (spec/00_scope.md R5). -/

namespace Sys2Proof.Laws

open Sys2Proof Sys2Proof.Machine Sys2Proof.Safety

/-! ### The default configuration is the model -/

/-- The default of every parameter gives the model's own instructions. -/
@[simp] theorem execWith_params : execWith params = exec := by
  funext i s
  cases i <;> rfl

@[simp] theorem stepWith_params : stepWith params = step := by
  funext s
  rw [stepWith, execWith_params, step, takeNext]

@[simp] theorem resetWith_params : State.resetWith params = State.reset := rfl

@[simp] theorem coreWith_params : coreWith params = Sys2Proof.core := by
  rw [coreWith, stepWith_params, resetWith_params, Sys2Proof.core]

/-! ### The transactions, with the default configuration -/

/-- A step performs the oldest transaction, or none. -/
theorem step_eq (s : State) : step s =
    match s.pending with
    | [] => .next s
    | t :: rest => perform t { s with pending := rest } := rfl

@[simp] theorem perform_read (idx : BitVec 6) (s : State) :
    perform (.read idx) s = .next (respond (.word (readIndex idx s.regs)) s) := rfl

@[simp] theorem perform_write (idx : BitVec 6) (w : Word) (s : State) :
    perform (.write idx w) s = .next (respond .written (s.withRegs (writeIndex idx w s.regs))) := rfl

@[simp] theorem perform_command (cmd : Word) (s : State) : perform (.command cmd) s = command cmd s := rfl

/-- `COMMAND` clears `FLAG`, then runs what the word decodes to (30_encoding.md R83). -/
theorem command_eq (cmd : Word) (s : State) :
    command cmd s = dispatch exec (decode cmd) (s.withRegs (clearFlag s.regs)) := rfl

/-! ### The registers' maps -/

/-- A `READ` is a read of the register REGMAP names. -/
theorem readIndex_eq (idx : BitVec 6) (r : RegFile) : readIndex idx r = readReg flagMap (regMap idx) r := rfl

/-- A `WRITE` is a write of the register REGMAP names. -/
theorem writeIndex_eq (idx : BitVec 6) (w : Word) (r : RegFile) : writeIndex idx w r = writeReg flagMap (regMap idx) w r := rfl

/-- Every condition is listed once. -/
theorem mem_conditions (f : FlagName) : f ∈ conditions := by
  rcases f with ⟨_ | _ | _⟩ | ⟨_ | _ | _⟩ | ⟨_ | _ | _⟩ | ⟨_ | _ | _⟩ | _ | _ | _ | _ | _ | _ | _ <;> decide

/-- Flag words with the same conditions are equal. -/
theorem flag_ext {a b : BitVec 19} (h : ∀ f, flagAt a f = flagAt b f) : a = b := by
  have hb : ∀ i : Nat, i < 19 → ∃ f, storedBit f = i := by
    intro i hi
    have : (List.range 19).all fun i => conditions.any fun f => storedBit f = i := by decide
    have := List.all_eq_true.mp this i (List.mem_range.mpr hi)
    obtain ⟨f, -, hf⟩ := List.any_eq_true.mp this
    exact ⟨f, of_decide_eq_true hf⟩
  refine BitVec.eq_of_getLsbD_eq fun i hi => ?_
  obtain ⟨f, rfl⟩ := hb i hi
  exact h f

/-- The bits of one field at its place in a word. -/
theorem field_bit {n : Nat} (x : BitVec n) (p k : Nat) (hp : p + n ≤ 32) :
    (x.setWidth 32 <<< p : Word).getLsbD k = (decide (p ≤ k ∧ k < p + n) && x.getLsbD (k - p)) := by
  simp only [BitVec.getLsbD_shiftLeft, BitVec.getLsbD_setWidth]
  by_cases h : p ≤ k ∧ k < p + n
  · have : k < 32 := by omega
    have : k - p < 32 := by omega
    simp [*]
  · by_cases hk : k < p
    · simp [hk, h]
    · have : x.getLsbD (k - p) = false := BitVec.getLsbD_of_ge _ _ (by omega)
      simp [this]

/-- A bit of the `FLAG` word is set exactly for the conditions FLAGMAP puts there. -/
theorem storedFlagWordWith_bit (m : FlagMap) (flag : BitVec 19) (k : Nat) :
    (storedFlagWordWith m flag).getLsbD k = (decide (k < 32) && conditions.any fun f => flagAt flag f && decide (m.bit f = k)) := by
  unfold storedFlagWordWith
  induction conditions with
  | nil => simp
  | cons f fs ih =>
    have h1 : ∀ b : Bool, ((BitVec.ofBool b).setWidth 32 <<< m.bit f : Word).getLsbD k
        = (decide (k < 32) && (b && decide (m.bit f = k))) := by
      intro b
      simp only [BitVec.getLsbD_shiftLeft, BitVec.getLsbD_setWidth, BitVec.getLsbD_ofBool]
      cases b
      · simp
      · by_cases hk : k < 32 <;> simp [hk]
        rw [Bool.eq_iff_iff]
        simp
        omega
    simp only [List.foldr_cons, BitVec.getLsbD_or, List.any_cons, ih, h1, flagAt]
    cases decide (k < 32) <;> simp

/-- A condition is stored by a `WRITE` exactly when its bit of the word is set. -/
theorem flagAt_loadFlagsWith (m : FlagMap) (w : Word) (f : FlagName) : flagAt (loadFlagsWith m w) f = w.getLsbD (m.bit f) := by
  have h : ∀ l : List FlagName, flagAt (l.foldr (fun f a => flagIf (w.getLsbD (m.bit f)) f ||| a) 0) f
      = (decide (f ∈ l) && w.getLsbD (m.bit f)) := by
    intro l
    induction l with
    | nil => simp
    | cons g gs ih =>
      simp only [List.foldr_cons, flagAt_or, flagAt_flagIf, ih, List.mem_cons]
      by_cases hg : f = g <;> simp [hg]
  rw [loadFlagsWith, h, decide_eq_true (mem_conditions f), Bool.true_and]

/-- The default FLAGMAP is legal (10_state.md R45). -/
theorem legalFlagMap_flagMap : LegalFlagMap flagMap := by
  refine ⟨fun f => ?_, fun f g => ?_, by decide⟩
  · rcases f with ⟨_ | _ | _⟩ | ⟨_ | _ | _⟩ | ⟨_ | _ | _⟩ | ⟨_ | _ | _⟩ | _ | _ | _ | _ | _ | _ | _ <;> decide
  · rcases f with ⟨_ | _ | _⟩ | ⟨_ | _ | _⟩ | ⟨_ | _ | _⟩ | ⟨_ | _ | _⟩ | _ | _ | _ | _ | _ | _ | _ <;>
    rcases g with ⟨_ | _ | _⟩ | ⟨_ | _ | _⟩ | ⟨_ | _ | _⟩ | ⟨_ | _ | _⟩ | _ | _ | _ | _ | _ | _ | _ <;> decide

/-- With the default FLAGMAP the condition bits stand at `FLAG[30:12]` in the stored order (10_state.md R43). -/
theorem storedFlagWord_eq (flag : BitVec 19) : storedFlagWord flag = flag.setWidth 32 <<< 12 := by
  refine BitVec.eq_of_getLsbD_eq fun k hk => ?_
  rw [storedFlagWord, storedFlagWordWith_bit]
  interval_cases k <;> simp [conditions, flagMap, flagBit, flagAt, storedBit]

/-- With the default FLAGMAP a `WRITE` stores `w[30:12]` (41_register_access.md R156). -/
theorem loadFlags_eq (w : Word) : loadFlags w = w.extractLsb' 12 19 := by
  refine flag_ext fun f => ?_
  rw [loadFlags, flagAt_loadFlagsWith]
  rcases f with ⟨_ | _ | _⟩ | ⟨_ | _ | _⟩ | ⟨_ | _ | _⟩ | ⟨_ | _ | _⟩ | _ | _ | _ | _ | _ | _ | _ <;>
    simp [flagMap, flagBit, flagAt, storedBit]

/-- The word a `READ` of `FLAG` returns, with the default FLAGMAP (10_state.md R46, 41_register_access.md R156). -/
theorem flagWord_eq (flag : BitVec 19) :
    flagWord flag = ((BitVec.ofBool ((flag.setWidth 32 <<< 12 &&& errorMask) != 0)).setWidth 32 <<< 31)
      ||| (flag.setWidth 32 <<< 12) := by
  rw [← storedFlagWord_eq]
  rfl

@[simp] theorem readReg_flag (r : RegFile) : readReg flagMap .flag r = flagWord r.flag := rfl

@[simp] theorem writeReg_flag (w : Word) (r : RegFile) :
    writeReg flagMap .flag w r = { r with flag := w.extractLsb' 12 19 } := by
  rw [← loadFlags_eq]
  rfl

/-! ### The encoding -/

/-- The default layout is legal (30_encoding.md R81). -/
theorem legalLayout_cmdFields : LegalLayout cmdFields := by decide

/-- The default encoding is legal: eighteen different opcode numbers (30_encoding.md R86). -/
theorem legalEncoding_encoding : LegalEncoding encoding :=
  ⟨legalLayout_cmdFields, fun o o' => by cases o <;> cases o' <;> decide⟩

/-- Every instruction name is listed. -/
theorem mem_operations (o : Operation) : o ∈ Operation.all := by cases o <;> decide

/-- A number names the instruction it is the number of. -/
theorem operationWith_of_eq {opcodes : Operation → BitVec 6} (h : ∀ o o', opcodes o = opcodes o' → o = o') (o : Operation) :
    operationWith opcodes (opcodes o) = some o := by
  unfold operationWith
  cases hf : Operation.all.find? fun o' => opcodes o' == opcodes o with
  | none => simpa using List.find?_eq_none.mp hf o (mem_operations o)
  | some o' => rw [h o' o (by simpa using List.find?_some hf)]

/-- OPCODES, the default, number by number (30_encoding.md R86). -/
theorem operationWith_opcodeOf (b : BitVec 6) : operationWith opcodeOf b =
    match b.toNat with
    | 0x01 => some .rtps
    | 0x06 => some .nclip
    | 0x0C => some .op
    | 0x10 => some .dcps
    | 0x11 => some .intpl
    | 0x12 => some .mvmva
    | 0x13 => some .ncds
    | 0x16 => some .ncdt
    | 0x1B => some .nccs
    | 0x28 => some .sqr
    | 0x29 => some .dcpl
    | 0x2A => some .dcpt
    | 0x2D => some .avsz3
    | 0x2E => some .avsz4
    | 0x30 => some .rtpt
    | 0x3D => some .gpf
    | 0x3E => some .gpl
    | 0x3F => some .ncct
    | _ => none := by
  revert b
  decide

/-- What the decoder gives, through the name the opcode gives. -/
theorem decode_eq (cmd : Word) : decode cmd =
    match operationWith opcodeOf (fieldsOf cmd).opcode with
    | some o => .ok (o.instr (fieldsOf cmd))
    | none => .error (.unrecognised (fieldsOf cmd).opcode) := rfl

/-- A bit of a field is inside it. -/
theorem inside {p n i : Nat} (h : i < n) : decide (p ≤ p + i ∧ p + i < p + n) = true := by
  rw [decide_eq_true_eq]
  omega

/-- A bit of a field is outside every field apart from it. -/
theorem outside_of {p n q m i : Nat} (h : apart (p, n) (q, m)) (hi : i < n) : decide (q ≤ p + i ∧ p + i < q + m) = false := by
  rw [decide_eq_false_iff_not]
  omega

/-- The fields of an assembled word are the fields it was assembled from, under every legal layout: no two fields overlap and
none is cut (30_encoding.md R81, R91). -/
theorem fieldsOfWith_assembleWith {l : CmdLayout} (hl : LegalLayout l) (f : CmdFields) :
    fieldsOfWith l (assembleWith l f) = f := by
  obtain ⟨po, pl, pt, pv, pm, ps⟩ := l
  obtain ⟨opcode, sf, lm, mx, vx, tx⟩ := f
  obtain ⟨h1, h2⟩ := hl
  simp only [fieldSpans, List.mem_cons, List.not_mem_nil, or_false, forall_eq_or_imp, forall_eq, List.pairwise_cons,
    List.Pairwise.nil, and_true, IsEmpty.forall_iff, implies_true] at h1 h2
  obtain ⟨wo, wl, wt, wv, wm, ws⟩ := h1
  obtain ⟨⟨ol, ot, ov, om, os⟩, ⟨lt, lv, lm', ls⟩, ⟨tv, tm, ts⟩, ⟨vm, vs⟩, ms⟩ := h2
  have bits : ∀ k, (assembleWith ⟨po, pl, pt, pv, pm, ps⟩ ⟨opcode, sf, lm, mx, vx, tx⟩).getLsbD k =
      (((((decide (po ≤ k ∧ k < po + 6) && opcode.getLsbD (k - po))
        || (decide (pl ≤ k ∧ k < pl + 1) && (BitVec.ofBool lm).getLsbD (k - pl)))
        || (decide (pt ≤ k ∧ k < pt + 2) && tx.getLsbD (k - pt))) || (decide (pv ≤ k ∧ k < pv + 2) && vx.getLsbD (k - pv)))
        || (decide (pm ≤ k ∧ k < pm + 2) && mx.getLsbD (k - pm))
        || (decide (ps ≤ k ∧ k < ps + 1) && (BitVec.ofBool sf).getLsbD (k - ps))) := by
    intro k
    simp only [assembleWith, BitVec.getLsbD_or]
    rw [field_bit _ _ _ wo, field_bit _ _ _ wl, field_bit _ _ _ wt, field_bit _ _ _ wv, field_bit _ _ _ wm, field_bit _ _ _ ws]
  simp only [fieldsOfWith, CmdFields.mk.injEq]
  refine ⟨?_, ?_, ?_, ?_, ?_, ?_⟩
  · refine BitVec.eq_of_getLsbD_eq fun i hi => ?_
    rw [BitVec.getLsbD_extractLsb', bits, inside hi, outside_of ol hi, outside_of ot hi, outside_of ov hi, outside_of om hi,
      outside_of os hi]
    simp [hi]
  · have h0 := Nat.zero_lt_one
    refine (bits (ps + 0)).trans ?_
    rw [inside h0, outside_of os.symm h0, outside_of ls.symm h0, outside_of ts.symm h0,
      outside_of vs.symm h0, outside_of ms.symm h0]
    simp
  · have h0 := Nat.zero_lt_one
    refine (bits (pl + 0)).trans ?_
    rw [inside h0, outside_of ol.symm h0, outside_of lt h0, outside_of lv h0, outside_of lm' h0,
      outside_of ls h0]
    simp
  · refine BitVec.eq_of_getLsbD_eq fun i hi => ?_
    rw [BitVec.getLsbD_extractLsb', bits, inside hi, outside_of om.symm hi, outside_of lm'.symm hi, outside_of tm.symm hi,
      outside_of vm.symm hi, outside_of ms hi]
    simp [hi]
  · refine BitVec.eq_of_getLsbD_eq fun i hi => ?_
    rw [BitVec.getLsbD_extractLsb', bits, inside hi, outside_of ov.symm hi, outside_of lv.symm hi, outside_of tv.symm hi,
      outside_of vm hi, outside_of vs hi]
    simp [hi]
  · refine BitVec.eq_of_getLsbD_eq fun i hi => ?_
    rw [BitVec.getLsbD_extractLsb', bits, inside hi, outside_of ot.symm hi, outside_of lt.symm hi, outside_of tv hi,
      outside_of tm hi, outside_of ts hi]
    simp [hi]

end Sys2Proof.Laws
end

