-- ==== Sys2Proof/Laws/State.lean ====
section
/-! SUPPORT. One lemma per field per update of the state, each true by `rfl`. -/

namespace Sys2Proof.Laws

open Sys2Proof Sys2Proof.Machine

variable (s : State) (r : RegFile) (m : BitVec 19) (a : Response)

@[simp] theorem withRegs_regs : (s.withRegs r).regs = r := rfl
@[simp] theorem withRegs_pending : (s.withRegs r).pending = s.pending := rfl
@[simp] theorem withRegs_response : (s.withRegs r).response = s.response := rfl
@[simp] theorem withRegs_withRegs (r' : RegFile) : (s.withRegs r).withRegs r' = s.withRegs r' := rfl
@[simp] theorem withRegs_self : s.withRegs s.regs = s := rfl
@[simp] theorem respond_regs : (respond a s).regs = s.regs := rfl
@[simp] theorem respond_pending : (respond a s).pending = s.pending := rfl
@[simp] theorem respond_response : (respond a s).response = a := rfl

@[simp] theorem raise_toInputRegs : (raise m r).toInputRegs = r.toInputRegs := rfl
@[simp] theorem raise_otz : (raise m r).otz = r.otz := rfl
@[simp] theorem raise_ir0 : (raise m r).ir0 = r.ir0 := rfl
@[simp] theorem raise_ir : (raise m r).ir = r.ir := rfl
@[simp] theorem raise_sxy0 : (raise m r).sxy0 = r.sxy0 := rfl
@[simp] theorem raise_sxy1 : (raise m r).sxy1 = r.sxy1 := rfl
@[simp] theorem raise_sxy2 : (raise m r).sxy2 = r.sxy2 := rfl
@[simp] theorem raise_sz0 : (raise m r).sz0 = r.sz0 := rfl
@[simp] theorem raise_sz1 : (raise m r).sz1 = r.sz1 := rfl
@[simp] theorem raise_sz2 : (raise m r).sz2 = r.sz2 := rfl
@[simp] theorem raise_sz3 : (raise m r).sz3 = r.sz3 := rfl
@[simp] theorem raise_rgb0 : (raise m r).rgb0 = r.rgb0 := rfl
@[simp] theorem raise_rgb1 : (raise m r).rgb1 = r.rgb1 := rfl
@[simp] theorem raise_rgb2 : (raise m r).rgb2 = r.rgb2 := rfl
@[simp] theorem raise_mac0 : (raise m r).mac0 = r.mac0 := rfl
@[simp] theorem raise_mac : (raise m r).mac = r.mac := rfl
@[simp] theorem raise_flag : (raise m r).flag = r.flag ||| m := rfl
@[simp] theorem clearFlag_toInputRegs : (clearFlag r).toInputRegs = r.toInputRegs := rfl
@[simp] theorem clearFlag_otz : (clearFlag r).otz = r.otz := rfl
@[simp] theorem clearFlag_ir0 : (clearFlag r).ir0 = r.ir0 := rfl
@[simp] theorem clearFlag_ir : (clearFlag r).ir = r.ir := rfl
@[simp] theorem clearFlag_sxy0 : (clearFlag r).sxy0 = r.sxy0 := rfl
@[simp] theorem clearFlag_sxy1 : (clearFlag r).sxy1 = r.sxy1 := rfl
@[simp] theorem clearFlag_sxy2 : (clearFlag r).sxy2 = r.sxy2 := rfl
@[simp] theorem clearFlag_sz0 : (clearFlag r).sz0 = r.sz0 := rfl
@[simp] theorem clearFlag_sz1 : (clearFlag r).sz1 = r.sz1 := rfl
@[simp] theorem clearFlag_sz2 : (clearFlag r).sz2 = r.sz2 := rfl
@[simp] theorem clearFlag_sz3 : (clearFlag r).sz3 = r.sz3 := rfl
@[simp] theorem clearFlag_rgb0 : (clearFlag r).rgb0 = r.rgb0 := rfl
@[simp] theorem clearFlag_rgb1 : (clearFlag r).rgb1 = r.rgb1 := rfl
@[simp] theorem clearFlag_rgb2 : (clearFlag r).rgb2 = r.rgb2 := rfl
@[simp] theorem clearFlag_mac0 : (clearFlag r).mac0 = r.mac0 := rfl
@[simp] theorem clearFlag_mac : (clearFlag r).mac = r.mac := rfl
@[simp] theorem clearFlag_flag : (clearFlag r).flag = 0 := rfl

/-- Flags raised one after another are raised together. -/
@[simp] theorem raise_raise (m' : BitVec 19) : raise m' (raise m r) = raise (m ||| m') r := by
  simp [raise, BitVec.or_assoc]

/-- Raising nothing changes nothing. -/
@[simp] theorem raise_zero : raise 0#19 r = r := by simp [raise]

/-- The effect of an instruction leaves the host interface alone. -/
theorem complete_eq (f : RegFile → RegFile) : complete f s = .next (s.withRegs (f s.regs)) := rfl

end Sys2Proof.Laws
end

