-- ==== Sys2Proof/Laws/Ops.lean ====
section
/-! SUPPORT. One lemma per shared operation that says once everything it does: the register file it leaves, as one record
update, and the conditions it raises. -/

namespace Sys2Proof.Laws

open Sys2Proof Sys2Proof.Machine Sys2Proof.Safety

/-- The flag word `setIr` raises for a stored `MAC<i>`. -/
def irMask (lm : Bool) (i : Lane) (m : Word) : BitVec 19 := clipFlags m.toInt 0x7fff (irMin lm) (.irSat i)

/-- The flag word of `setLanes`. -/
def lanesMask (sf lm : Bool) (v : Vec3 Int) : BitVec 19 :=
  (chk44Flags .one v.x ||| irMask lm .one (macOf sf v.x)) ||| (chk44Flags .two v.y ||| irMask lm .two (macOf sf v.y))
    ||| (chk44Flags .three v.z ||| irMask lm .three (macOf sf v.z))

theorem irMin_eq (lm : Bool) : irMin lm = irLow lm := by cases lm <;> rfl

theorem irLow_le (lm : Bool) : irLow lm ≤ 32767 := by cases lm <;> simp [irLow]

/-- `setMacAndIr` (40_arith_core.md R108): `MAC<i>` from the sum, `IR<i>` from the stored `MAC<i>`, their flags, nothing else. -/
theorem setMacAndIr_eq (sf lm : Bool) (i : Lane) (v : Int) (r : RegFile) :
    setMacAndIr sf lm i v r =
      { r with mac := r.mac.set i (macOf sf v), ir := r.ir.set i (irOf lm (macOf sf v))
               flag := r.flag ||| (chk44Flags i v ||| irMask lm i (macOf sf v)) } := by
  have hc : ∀ x : Int, clip x 0x7fff (irMin lm) = saturate (irLow lm) 32767 x := fun x => by
    rw [irMin_eq]; exact clip_eq_saturate (irLow_le lm) x
  cases i <;>
    simp [setMacAndIr, setIr, setMac, accumulate_eq_macOf, irMask, irOf, raise, Vec3.get, Vec3.set, hc, BitVec.or_assoc]

/-- `setLanes` (40_arith_core.md R107, R121): the three lanes and their flags, nothing else. -/
theorem setLanes_eq (sf lm : Bool) (v : Vec3 Int) (r : RegFile) :
    setLanes sf lm v r =
      { r with mac := macsOf sf v, ir := irsOf lm (macsOf sf v), flag := r.flag ||| lanesMask sf lm v } := by
  simp [setLanes, setMacAndIr_eq, Vec3.set, macsOf, irsOf, Vec3.map, lanesMask, BitVec.or_assoc]

/-- The conditions `setLanes` raises. -/
theorem flagAt_lanesMask (sf lm : Bool) (v : Vec3 Int) (f : FlagName) :
    flagAt (lanesMask sf lm v) f = lanesFlag sf lm v f := by
  have hir : ∀ (i : Lane) (m : Word), flagAt (irMask lm i m) f = (outside (irLow lm) 32767 m.toInt && decide (f = .irSat i)) :=
    fun i m => by rw [irMask, irMin_eq]; exact flagAt_clipFlags (irLow_le lm) _ _ _
  simp only [lanesMask, flagAt_or, flagAt_chk44, hir]
  rcases f with ⟨_ | _ | _⟩ | ⟨_ | _ | _⟩ | ⟨_ | _ | _⟩ | ⟨_ | _ | _⟩ | _ | _ | _ | _ | _ | _ | _ <;>
    simp [lanesFlag, Vec3.get, macsOf, Vec3.map]

/-- The sum the engine makes agrees with the exact one up to a multiple of `2^44`. -/
theorem mvmaSum_congr (m : Mat3) (v t : Vec3 Int) (i : Lane) :
    ∃ k : Int, mvmaSum m v t i = rowSum (m.row i) v (t.get i) + k * 17592186044416 := by
  simp only [mvmaSum, laneSum, rowProducts, shl, rowSum]
  obtain ⟨a, ha⟩ := wrap44_eq_add (t.get i * ((2 ^ 12 : Nat) : Int) + (m.row i).x.toInt * v.x)
  obtain ⟨b, hb⟩ := wrap44_eq_add (wrap44 (t.get i * ((2 ^ 12 : Nat) : Int) + (m.row i).x.toInt * v.x) + (m.row i).y.toInt * v.y)
  obtain ⟨c, hc⟩ := wrap44_eq_add
    (wrap44 (wrap44 (t.get i * ((2 ^ 12 : Nat) : Int) + (m.row i).x.toInt * v.x) + (m.row i).y.toInt * v.y)
      + (m.row i).z.toInt * v.z)
  refine ⟨a + b + c, ?_⟩
  rw [hc, hb, ha]
  push_cast
  ring

/-- The sum the engine makes is the exact one wrapped to 44 bits. -/
theorem mvmaSum_eq_bmod (m : Mat3) (v t : Vec3 Int) (i : Lane) :
    mvmaSum m v t i = (rowSum (m.row i) v (t.get i)).bmod (2 ^ 44) := by
  obtain ⟨k, hk⟩ := mvmaSum_congr m v t i
  have hr : wrap44 (mvmaSum m v t i) = mvmaSum m v t i := by
    have h := wrap44_range
      (wrap44 (wrap44 (shl (t.get i) 12 + (m.row i).x.toInt * v.x) + (m.row i).y.toInt * v.y) + (m.row i).z.toInt * v.z)
    have hm : mvmaSum m v t i = wrap44
      (wrap44 (wrap44 (shl (t.get i) 12 + (m.row i).x.toInt * v.x) + (m.row i).y.toInt * v.y) + (m.row i).z.toInt * v.z) := rfl
    rw [← hm] at h
    rw [wrap44_eq_bmod]
    apply Int.bmod_eq_of_le <;> norm_num at * <;> omega
  rw [← hr, wrap44_eq_bmod, hk]
  have : rowSum (m.row i) v (t.get i) + k * 17592186044416 = rowSum (m.row i) v (t.get i) + ((2 ^ 44 : Nat) : Int) * k := by
    push_cast; ring
  rw [this, Int.add_mul_bmod_self_left]

/-- `MAC<i>` of the engine's sum is that of the exact one. -/
theorem macOf_mvmaSum (sf : Bool) (m : Mat3) (v t : Vec3 Int) (i : Lane) :
    macOf sf (mvmaSum m v t i) = macOf sf (rowSum (m.row i) v (t.get i)) := by
  obtain ⟨k, hk⟩ := mvmaSum_congr m v t i
  rw [hk, macOf_add_mul]

/-- The three `MAC` of the engine's sums. -/
theorem macsOf_mvmaSum (sf : Bool) (m : Mat3) (v t : Vec3 Int) :
    macsOf sf { x := mvmaSum m v t .one, y := mvmaSum m v t .two, z := mvmaSum m v t .three } = macsOf sf (rowSums m v t) := by
  simp [macsOf, Vec3.map, macOf_mvmaSum, rowSums, Mat3.row, Vec3.get]

/-- The flag word of `mvma`. -/
def mvmaMask (sf lm : Bool) (m : Mat3) (v t : Vec3 Int) : BitVec 19 :=
  (mvmaSumFlags m v t .one ||| mvmaSumFlags m v t .two ||| mvmaSumFlags m v t .three)
    ||| lanesMask sf lm { x := mvmaSum m v t .one, y := mvmaSum m v t .two, z := mvmaSum m v t .three }

/-- `mvma` (40_arith_core.md R107): the lanes from the exact sums, the flags, nothing else. -/
theorem mvma_eq (sf lm : Bool) (m : Mat3) (v t : Vec3 Int) (r : RegFile) :
    mvma sf lm m v t r =
      { r with mac := macsOf sf (rowSums m v t), ir := irsOf lm (macsOf sf (rowSums m v t))
               flag := r.flag ||| mvmaMask sf lm m v t } := by
  simp [mvma, setLanes_eq, macsOf_mvmaSum, mvmaMask, raise, BitVec.or_assoc]

/-- The flags of one lane sum: some partial sum leaves 44 bits. -/
theorem flagAt_mvmaSumFlags (m : Mat3) (v t : Vec3 Int) (i : Lane) (f : FlagName) :
    flagAt (mvmaSumFlags m v t i) f =
      ((somePartial above44 (m.row i) v (t.get i) && decide (f = .macPos i))
        || (somePartial below44 (m.row i) v (t.get i) && decide (f = .macNeg i))) := by
  simp only [mvmaSumFlags, laneSumFlags, rowProducts, flagAt_or, flagAt_chk44, somePartial, ← wrap44_eq_bmod, shl]
  norm_num
  generalize decide (f = .macPos i) = p
  generalize decide (f = .macNeg i) = q
  cases p <;> cases q <;> simp [Bool.or_assoc, Bool.or_comm, Bool.or_left_comm]

/-- The conditions `mvma` raises. -/
theorem flagAt_mvmaMask (sf lm : Bool) (m : Mat3) (v t : Vec3 Int) (f : FlagName) :
    flagAt (mvmaMask sf lm m v t) f = rowsFlag sf lm m v t f := by
  have hin : ∀ i, above44 (mvmaSum m v t i) = false ∧ below44 (mvmaSum m v t i) = false := fun i => wrap44_in_range _
  simp only [mvmaMask, flagAt_or, flagAt_mvmaSumFlags, flagAt_lanesMask]
  rcases f with ⟨_ | _ | _⟩ | ⟨_ | _ | _⟩ | ⟨_ | _ | _⟩ | ⟨_ | _ | _⟩ | _ | _ | _ | _ | _ | _ | _ <;>
    simp [rowsFlag, lanesFlag, hin, Vec3.get, macsOf_mvmaSum]

/-- `setMac(0, v)` (40_arith_core.md R114). -/
theorem setMac0_eq (v : Int) (r : RegFile) :
    setMac0 v r = { r with mac0 := BitVec.ofInt 32 v, flag := r.flag ||| mac0Flags v } := rfl

/-- `pushScreenZ` (40_arith_core.md R116). -/
theorem pushScreenZ_eq (z : Int) (r : RegFile) :
    pushScreenZ z r =
      { r with sz0 := r.sz1, sz1 := r.sz2, sz2 := r.sz3, sz3 := BitVec.ofInt 16 (saturate 0 65535 z)
               flag := r.flag ||| clipFlags z 0xffff 0 .szOtzSat } := by
  simp [pushScreenZ, raise, clip_eq_saturate (show (0 : Int) ≤ 65535 by norm_num)]

/-- `pushScreenXY` (40_arith_core.md R117). -/
theorem pushScreenXY_eq (x y : Int) (r : RegFile) :
    pushScreenXY x y r =
      { r with sxy0 := r.sxy1, sxy1 := r.sxy2
               sxy2 := { x := BitVec.ofInt 16 (saturate (-1024) 1023 x), y := BitVec.ofInt 16 (saturate (-1024) 1023 y) }
               flag := r.flag ||| (clipFlags x 0x3ff (-0x400) .sx2Sat ||| clipFlags y 0x3ff (-0x400) .sy2Sat) } := by
  simp [pushScreenXY, raise, clip_eq_saturate (show (-1024 : Int) ≤ 1023 by norm_num)]

/-- The flag word of `pushColor`. -/
def colorMask (m : Vec3 Word) : BitVec 19 := colorFlags .one m.x ||| colorFlags .two m.y ||| colorFlags .three m.z

/-- `pushColor` (40_arith_core.md R118). -/
theorem pushColor_eq (r : RegFile) :
    pushColor r =
      { r with rgb0 := r.rgb1, rgb1 := r.rgb2, rgb2 := pushed r.mac r.rgbc.code, flag := r.flag ||| colorMask r.mac } := by
  simp [pushColor, raise, colorMask, pushed, byteOf, colorByte, asr, clip_eq_saturate (show (0 : Int) ≤ 255 by norm_num)]

/-- The conditions `pushColor` raises. -/
theorem flagAt_colorMask (m : Vec3 Word) (f : FlagName) : flagAt (colorMask m) f = pushedFlag m f := by
  simp only [colorMask, colorFlags, flagAt_or, flagAt_clipFlags (show (0 : Int) ≤ 0xff by norm_num), asr]
  rcases f with ⟨_ | _ | _⟩ | ⟨_ | _ | _⟩ | ⟨_ | _ | _⟩ | ⟨_ | _ | _⟩ | _ | _ | _ | _ | _ | _ | _ <;>
    simp [pushedFlag, Vec3.get]

/-- `setOtz` (40_arith_core.md R115). -/
theorem setOtz_eq (r : RegFile) :
    setOtz r =
      { r with otz := BitVec.ofInt 16 (saturate 0 65535 (r.mac0.toInt / 4096))
               flag := r.flag ||| clipFlags (r.mac0.toInt / 4096) 0xffff 0 .szOtzSat } := by
  simp [setOtz, raise, asr, clip_eq_saturate (show (0 : Int) ≤ 65535 by norm_num)]

/-- The flag word of `interpolate`. -/
def blendMask (sf lm : Bool) (r : RegFile) (b : Vec3 Int) : BitVec 19 :=
  lanesMask sf false (farSums r b) ||| lanesMask sf lm (blendSums sf r b)

/-- `interpolate` (40_arith_core.md R119). -/
theorem interpolate_eq (sf lm : Bool) (b : Vec3 Int) (r : RegFile) :
    interpolate sf lm b r =
      { r with mac := blendMac sf r b, ir := irsOf lm (blendMac sf r b), flag := r.flag ||| blendMask sf lm r b } := by
  have hfar : farDifference (transVec .fc r) b = farSums r b := by
    simp [farDifference, transVec, translation, signedVec, Vec3.map, farSums, shl]
  have hblend : blend (irVec (setLanes sf false (farSums r b) r)) (setLanes sf false (farSums r b) r).ir0.toInt b
      = blendSums sf r b := by
    simp [setLanes_eq, blend, irVec, signedVec, Vec3.map, blendSums, irsOf]
  simp only [interpolate, hfar, hblend]
  simp [setLanes_eq, blendMac, blendMask, BitVec.or_assoc]

/-- The conditions `interpolate` raises. -/
theorem flagAt_blendMask (sf lm : Bool) (r : RegFile) (b : Vec3 Int) (f : FlagName) :
    flagAt (blendMask sf lm r b) f = blendFlag sf lm r b f := by
  simp [blendMask, blendFlag, flagAt_lanesMask]

end Sys2Proof.Laws
end

