-- ==== Sys2Proof/Laws/Datapaths.lean ====
section
/-! SUPPORT. One lemma per shared datapath (the push of a result, the normal-colour datapath, the projection, the averages):
the register file it leaves, as one record update, and the conditions it raises. -/

namespace Sys2Proof.Laws

open Sys2Proof Sys2Proof.Machine Sys2Proof.Safety

/-- An instruction whose effect is one record update with a joined flag word completes. -/
theorem completes_of {i : Instr} {s : State} {f : RegFile → RegFile} {r' : RegFile} {m : BitVec 19} {p : FlagName → Bool}
    (he : exec i s = complete f s) (hf : f s.regs = { r' with flag := s.regs.flag ||| m }) (hp : ∀ g, flagAt m g = p g) :
    Completes i s r' p :=
  ⟨s.regs.flag ||| m, by rw [he, complete, hf], fun g => by rw [flagAt_or, hp]⟩

/-- Storing three lane sums and pushing the colour (45_utility.md R201, R202). -/
theorem pushColor_setLanes_eq (sf lm : Bool) (v : Vec3 Int) (r : RegFile) :
    pushColor (setLanes sf lm v r) =
      { r with mac := macsOf sf v, ir := irsOf lm (macsOf sf v), rgb0 := r.rgb1, rgb1 := r.rgb2
               rgb2 := pushed (macsOf sf v) r.rgbc.code
               flag := r.flag ||| (lanesMask sf lm v ||| colorMask (macsOf sf v)) } := by
  simp [pushColor_eq, setLanes_eq, BitVec.or_assoc]

/-- Blending a base and pushing the colour (44_lighting_color.md R186, R188, R189). -/
theorem pushColor_interpolate_eq (sf lm : Bool) (b : Vec3 Int) (r : RegFile) :
    pushColor (interpolate sf lm b r) =
      { r with mac := blendMac sf r b, ir := irsOf lm (blendMac sf r b), rgb0 := r.rgb1, rgb1 := r.rgb2
               rgb2 := pushed (blendMac sf r b) r.rgbc.code
               flag := r.flag ||| (blendMask sf lm r b ||| colorMask (blendMac sf r b)) } := by
  simp [pushColor_eq, interpolate_eq, BitVec.or_assoc]

/-- The conditions of a blend and its push. -/
theorem flagAt_blendPush (sf lm : Bool) (b : Vec3 Int) (r : RegFile) (f : FlagName) :
    flagAt (blendMask sf lm r b ||| colorMask (blendMac sf r b)) f = blendPushFlag sf lm r b f := by
  simp [flagAt_blendMask, flagAt_colorMask, blendPushFlag]

/-- The light times the colour, in exact integers. -/
theorem lightTimesColor_eq (r : RegFile) : lightTimesColor r = colorSums r.rgbc r.ir := by
  simp [lightTimesColor, colorScale, irVec, signedVec, Vec3.map, colorSums, shl, unsignedVal]

/-- `IR << 12`, in exact integers. -/
theorem irBase_eq (r : RegFile) : irBase r = irSums r.ir := by
  simp [irBase, irVec, signedVec, Vec3.map, irSums, shl]

/-- `dcp` is a blend of `colour << 16` and a push (44_lighting_color.md R186). -/
theorem dcp_eq (sf lm : Bool) (c : Color) (r : RegFile) : dcp sf lm c r = pushColor (interpolate sf lm (byteSums c) r) := by
  simp [dcp, byteSums, shl, unsignedVal]

/-- The flag word of `nc` in the document's order. -/
def ncMask (sf lm : Bool) (r : RegFile) (n : Fin 3) (cue : Bool) : BitVec 19 :=
  mvmaMask sf lm r.l (vertexVec n r) (transVec .bk r)
    ||| mvmaMask sf lm r.lr (signedVec (stageAIr sf lm r n)) (transVec .fc r)
    ||| (if cue then blendMask sf lm r (irSums (stageBIr sf lm r n)) else 0)
    ||| lanesMask sf lm (colorSums r.rgbc (stageCIr sf lm r n cue)) ||| colorMask (ncMac sf lm r n cue)

/-- `nc` in the document's order (44_lighting_color.md R181). -/
theorem nc_eq (sf lm : Bool) (n : Fin 3) (cue : Bool) (r : RegFile) :
    nc params sf lm n cue r =
      { r with mac := ncMac sf lm r n cue, ir := irsOf lm (ncMac sf lm r n cue), rgb0 := r.rgb1, rgb1 := r.rgb2
               rgb2 := pushed (ncMac sf lm r n cue) r.rgbc.code, flag := r.flag ||| ncMask sf lm r n cue } := by
  cases cue <;>
    simp [nc, params, ncDocument, mvma_eq, colmul, interpolate_eq, pushColor_eq, setLanes_eq, lightTimesColor_eq, irBase_eq,
      irVec, ncMac, ncMask, stageASums, stageAIr, stageBSums, stageBIr, stageCIr, blendMac, blendSums, farSums, transVec,
      translation, blendMask, BitVec.or_assoc]

/-- The conditions `nc` raises. -/
theorem flagAt_ncMask (sf lm : Bool) (r : RegFile) (n : Fin 3) (cue : Bool) (f : FlagName) :
    flagAt (ncMask sf lm r n cue) f = ncFlag sf lm r n cue f := by
  cases cue <;> simp [ncMask, ncFlag, flagAt_mvmaMask, flagAt_blendMask, flagAt_lanesMask, flagAt_colorMask]

/-- `nc` computes from registers it leaves alone: input registers and `IR0`. -/
theorem ncMac_congr (sf lm cue : Bool) (n : Fin 3) {r r' : RegFile} (h : r'.toInputRegs = r.toInputRegs) (h' : r'.ir0 = r.ir0) :
    ncMac sf lm r' n cue = ncMac sf lm r n cue ∧ ncMask sf lm r' n cue = ncMask sf lm r n cue := by
  cases r
  cases r'
  cases h
  cases h'
  exact ⟨rfl, rfl⟩

/-- `nc` after others of its kind, in the values of the state before them (44_lighting_color.md R184, R185). -/
theorem nc_eq_of (sf lm cue : Bool) (n : Fin 3) {r0 r : RegFile} (h : r.toInputRegs = r0.toInputRegs) (h' : r.ir0 = r0.ir0) :
    nc params sf lm n cue r =
      { r with mac := ncMac sf lm r0 n cue, ir := irsOf lm (ncMac sf lm r0 n cue), rgb0 := r.rgb1, rgb1 := r.rgb2
               rgb2 := pushed (ncMac sf lm r0 n cue) r0.rgbc.code, flag := r.flag ||| ncMask sf lm r0 n cue } := by
  rw [nc_eq, (ncMac_congr sf lm cue n h h').1, (ncMac_congr sf lm cue n h h').2, h]

/-- The flag word of steps 1 to 6 of the projection. -/
def projMask (sf lm : Bool) (r : RegFile) (n : Fin 3) : BitVec 19 :=
  mvmaMask sf lm r.rt (vertexVec n r) (transVec .tr r) ||| clipFlags (projZ r n) 0xffff 0 .szOtzSat
    ||| flagIf (divide r.h (projDepth r n)).2 .divOvf ||| mac0Flags (projX sf lm r n) ||| mac0Flags (projY sf lm r n)
    ||| (clipFlags (projX sf lm r n / 65536) 0x3ff (-0x400) .sx2Sat
      ||| clipFlags (projY sf lm r n / 65536) 0x3ff (-0x400) .sy2Sat)

/-- The flag word of step 7 of the projection. -/
def cueMask (r : RegFile) (n : Fin 3) : BitVec 19 :=
  mac0Flags (cueSum r n) ||| clipFlags (cueSum r n / 4096) 0x1000 0 .ir0Sat

/-- Step 2 of the projection reads the exact lane-3 sum, wrapped to 44 bits. -/
theorem projZ_eq (r : RegFile) (n : Fin 3) : asr (mvmaSum r.rt (vertexVec n r) (transVec .tr r) .three) 12 = projZ r n := by
  rw [mvmaSum_eq_bmod]
  rfl

/-- `rtp` without the depth cue, for any configuration that divides by the default RECIP (42_projection.md R161). -/
theorem rtp_eq {c : Config RegFile} (hc : c.recip = divide) (sf lm : Bool) (n : Fin 3) {last : Bool}
    (hl : (last && c.rtpsDepthCue) = false) (r : RegFile) :
    rtp c sf lm n last r =
      { r with mac := projMac sf r n, ir := projIr sf lm r n
               sz0 := r.sz1, sz1 := r.sz2, sz2 := r.sz3, sz3 := projDepth r n
               sxy0 := r.sxy1, sxy1 := r.sxy2, sxy2 := projScreen sf lm r n
               mac0 := BitVec.ofInt 32 (projY sf lm r n), flag := r.flag ||| projMask sf lm r n } := by
  simp only [rtp, hl, projZ_eq, hc, Bool.false_eq_true, if_false]
  simp only [projectXY, mvma_eq, pushScreenZ_eq, pushScreenXY_eq, setMac0_eq, raise, asr]
  simp [projMask, projMac, projIr, projScreen, projX, projY, projQuotient, projDepth, BitVec.or_assoc, projSums, unsignedVal]

/-- `rtp` with the depth cue (42_projection.md R161). -/
theorem rtp_cue_eq (sf lm : Bool) (n : Fin 3) (r : RegFile) :
    rtp params sf lm n true r =
      { r with mac := projMac sf r n, ir := projIr sf lm r n
               sz0 := r.sz1, sz1 := r.sz2, sz2 := r.sz3, sz3 := projDepth r n
               sxy0 := r.sxy1, sxy1 := r.sxy2, sxy2 := projScreen sf lm r n
               mac0 := BitVec.ofInt 32 (cueSum r n), ir0 := cueIr0 r n
               flag := r.flag ||| (projMask sf lm r n ||| cueMask r n) } := by
  simp only [rtp, params, projZ_eq, Bool.and_self, if_true]
  simp only [projectXY, mvma_eq, pushScreenZ_eq, pushScreenXY_eq, setMac0_eq, raise, asr, depthCue]
  simp [projMask, projMac, projIr, projScreen, projX, projY, projQuotient, projDepth, BitVec.or_assoc, projSums, unsignedVal,
    cueMask, cueIr0, cueSum, clip_eq_saturate (show (0 : Int) ≤ 4096 by norm_num)]

/-- The conditions of steps 1 to 6. -/
theorem flagAt_projMask (sf lm : Bool) (r : RegFile) (n : Fin 3) (f : FlagName) :
    flagAt (projMask sf lm r n) f = projFlag sf lm r n f := by
  have hd : (divide r.h (projDepth r n)).2 = decide (2 * (projDepth r n).toNat ≤ r.h.toNat) := by
    unfold divide
    split <;> simp <;> omega
  simp only [projMask, flagAt_or, flagAt_mvmaMask, flagAt_mac0Flags, flagAt_clipFlags (show (0 : Int) ≤ 0xffff by norm_num),
    flagAt_clipFlags (show (-0x400 : Int) ≤ 0x3ff by norm_num), flagAt_flagIf, hd, projFlag]
  rcases f with ⟨_ | _ | _⟩ | ⟨_ | _ | _⟩ | ⟨_ | _ | _⟩ | ⟨_ | _ | _⟩ | _ | _ | _ | _ | _ | _ | _ <;> simp [rowsFlag, mac0Flag]

/-- The conditions of step 7. -/
theorem flagAt_cueMask (r : RegFile) (n : Fin 3) (f : FlagName) : flagAt (cueMask r n) f = cueFlag r n f := by
  simp only [cueMask, flagAt_or, flagAt_mac0Flags, flagAt_clipFlags (show (0 : Int) ≤ 0x1000 by norm_num)]
  cases f <;> simp [mac0Flag, cueFlag]

/-- The projection computes from input registers, which it leaves alone. -/
theorem proj_congr (sf lm : Bool) (n : Fin 3) {r r' : RegFile} (h : r'.toInputRegs = r.toInputRegs) :
    projMac sf r' n = projMac sf r n ∧ projIr sf lm r' n = projIr sf lm r n ∧ projDepth r' n = projDepth r n ∧
      projScreen sf lm r' n = projScreen sf lm r n ∧ projY sf lm r' n = projY sf lm r n ∧
      projMask sf lm r' n = projMask sf lm r n ∧ cueSum r' n = cueSum r n ∧ cueIr0 r' n = cueIr0 r n ∧
      cueMask r' n = cueMask r n := by
  cases r
  cases r'
  cases h
  exact ⟨rfl, rfl, rfl, rfl, rfl, rfl, rfl, rfl, rfl⟩

/-- `setOtz` after a `MAC0` write (45_utility.md R206, R207). -/
theorem setOtz_setMac0_eq (v : Int) (r : RegFile) :
    setOtz (setMac0 v r) =
      { r with mac0 := BitVec.ofInt 32 v, otz := otzOf v
               flag := r.flag ||| (mac0Flags v ||| clipFlags ((v.bmod (2 ^ 32)) / 4096) 0xffff 0 .szOtzSat) } := by
  simp [setOtz_eq, setMac0_eq, otzOf, BitVec.or_assoc, BitVec.toInt_ofInt]

/-- The conditions of an average-Z sum. -/
theorem flagAt_average (v : Int) (f : FlagName) :
    flagAt (mac0Flags v ||| clipFlags ((v.bmod (2 ^ 32)) / 4096) 0xffff 0 .szOtzSat) f = averageFlag v f := by
  simp only [flagAt_or, flagAt_mac0Flags, flagAt_clipFlags (show (0 : Int) ≤ 0xffff by norm_num), averageFlag]
  rw [Bool.and_comm]

/-- The product of differences `nclip` makes is the six-product sum (45_utility.md R205). -/
theorem nclipValue_eq (r : RegFile) : nclipValue r = clipSum r := by
  simp only [nclipValue, clipSum]
  ring

end Sys2Proof.Laws
end

