-- ==== Sys2Proof/Laws/PerInstr.lean ====
section
/-! SUPPORT. Laws that hold of every instruction as syntax, one lemma per constructor. -/

namespace Sys2Proof.Laws

open Sys2Proof

/-- The decoder's fields of an assembled word, with the default layout (30_encoding.md R81, R91). -/
theorem fieldsOf_assemble (f : CmdFields) : fieldsOf (assemble f) = f := fieldsOfWith_assembleWith legalLayout_cmdFields f

/-- An instruction's word carries exactly the instruction's fields: the word of the encoder splits into the fields of the
opcode map, every field the instruction does not read is 0, under every encoding with a legal layout (30_encoding.md R86,
R91). -/
def EncodingFields.Statement (i : Instr) : Prop :=
  ∀ e : Encoding, Safety.LegalLayout e.cmdFields → fieldsOfWith e.cmdFields (encodeWith e i) = i.fieldsWith e.opcodes

theorem EncodingFields.rtps (sf lm : Bool) : EncodingFields.Statement (.rtps sf lm) :=
  fun _ h => fieldsOfWith_assembleWith h _

theorem EncodingFields.nclip : EncodingFields.Statement .nclip :=
  fun _ h => fieldsOfWith_assembleWith h _

theorem EncodingFields.op (sf lm : Bool) : EncodingFields.Statement (.op sf lm) :=
  fun _ h => fieldsOfWith_assembleWith h _

theorem EncodingFields.dcps (sf lm : Bool) : EncodingFields.Statement (.dcps sf lm) :=
  fun _ h => fieldsOfWith_assembleWith h _

theorem EncodingFields.intpl (sf lm : Bool) : EncodingFields.Statement (.intpl sf lm) :=
  fun _ h => fieldsOfWith_assembleWith h _

theorem EncodingFields.mvmva (sf lm : Bool) (mx : MatrixSel) (vx : VectorSel) (tx : TransSel) : EncodingFields.Statement (.mvmva sf lm mx vx tx) :=
  fun _ h => fieldsOfWith_assembleWith h _

theorem EncodingFields.ncds (sf lm : Bool) : EncodingFields.Statement (.ncds sf lm) :=
  fun _ h => fieldsOfWith_assembleWith h _

theorem EncodingFields.ncdt (sf lm : Bool) : EncodingFields.Statement (.ncdt sf lm) :=
  fun _ h => fieldsOfWith_assembleWith h _

theorem EncodingFields.nccs (sf lm : Bool) : EncodingFields.Statement (.nccs sf lm) :=
  fun _ h => fieldsOfWith_assembleWith h _

theorem EncodingFields.sqr (sf lm : Bool) : EncodingFields.Statement (.sqr sf lm) :=
  fun _ h => fieldsOfWith_assembleWith h _

theorem EncodingFields.dcpl (sf lm : Bool) : EncodingFields.Statement (.dcpl sf lm) :=
  fun _ h => fieldsOfWith_assembleWith h _

theorem EncodingFields.dcpt (sf lm : Bool) : EncodingFields.Statement (.dcpt sf lm) :=
  fun _ h => fieldsOfWith_assembleWith h _

theorem EncodingFields.avsz3 : EncodingFields.Statement .avsz3 :=
  fun _ h => fieldsOfWith_assembleWith h _

theorem EncodingFields.avsz4 : EncodingFields.Statement .avsz4 :=
  fun _ h => fieldsOfWith_assembleWith h _

theorem EncodingFields.rtpt (sf lm : Bool) : EncodingFields.Statement (.rtpt sf lm) :=
  fun _ h => fieldsOfWith_assembleWith h _

theorem EncodingFields.gpf (sf lm : Bool) : EncodingFields.Statement (.gpf sf lm) :=
  fun _ h => fieldsOfWith_assembleWith h _

theorem EncodingFields.gpl (sf lm : Bool) : EncodingFields.Statement (.gpl sf lm) :=
  fun _ h => fieldsOfWith_assembleWith h _

theorem EncodingFields.ncct (sf lm : Bool) : EncodingFields.Statement (.ncct sf lm) :=
  fun _ h => fieldsOfWith_assembleWith h _

end Sys2Proof.Laws
end

