-- ==== Sys2Proof/Tests/Slice0.lean ====
section
/-! SUPPORT. The model's own tests. Expected values come from spec/95_test_vectors.md and from the worked examples of the
rules (each test names its source); words are written out from spec/30_encoding.md R81, R86. Last, one witness for every
statement that has hypotheses. -/

namespace Sys2Proof.Tests

open Sys2Proof Sys2Proof.Machine Sys2Proof.Safety

/-! ### Helpers -/

/-- The reset registers after the host's writes, in order. -/
def load (ws : List (Nat × Nat)) : RegFile :=
  ws.foldl (fun r p => writeIndex (BitVec.ofNat 6 p.1) (BitVec.ofNat 32 p.2) r) RegFile.reset

/-- What `READ` of each index returns. -/
def reads (idx : List Nat) (r : RegFile) : List Nat := idx.map fun i => (readIndex (BitVec.ofNat 6 i) r).toNat

/-- The reset state with the registers `load` gives. -/
def start (ws : List (Nat × Nat)) : State := State.reset.withRegs (load ws)

/-- One step from `start ws` with the command word `cmd` issued, then `READ` of some indices. -/
def after (ws : List (Nat × Nat)) (cmd : Nat) (idx : List Nat) : Option (List Nat) :=
  match step ((start ws).withFetchWord 32 cmd) with
  | .next t => some (reads idx t.regs)
  | .fault _ => none
  | .refused _ => none

/-- An identity matrix at base index `b` (95_test_vectors.md, Conventions). -/
def identity (b : Nat) : List (Nat × Nat) := [(b, 0x1000), (b + 1, 0), (b + 2, 0x1000), (b + 3, 0), (b + 4, 0x1000)]

/-- The instruction a command word decodes to. -/
def decodes (w : Nat) : Option Instr := decodeTableWord 32 w

/-! ### WellFormed: the one check, with the ill-formed term it refuses -/

theorem test_wellFormed_refuses_reserved_matrix : (Instr.mvmva true false .reserved .ir .zero).wellFormed = false := by decide

theorem test_wellFormed_accepts_matrix : (Instr.mvmva true false (.mat .lr) .ir .zero).wellFormed = true := by decide

/-! ### Decoding: words written out from R81 and R86 (opcode in bits 5:0, lm bit 10, sf bit 19) -/

theorem test_decode_rtps : decodes 0b00000000000010000000000000000001 = some (.rtps true false) := by decide

theorem test_decode_rtpt : decodes 0b00000000000000000000010000110000 = some (.rtpt false true) := by decide

theorem test_decode_op : decodes 0b00000000000010000000000000001100 = some (.op true false) := by decide

theorem test_decode_dcps : decodes 0b00000000000000000000010000010000 = some (.dcps false true) := by decide

theorem test_decode_intpl : decodes 0b00000000000010000000000000010001 = some (.intpl true false) := by decide

theorem test_decode_ncds : decodes 0b00000000000000000000010000010011 = some (.ncds false true) := by decide

theorem test_decode_ncdt : decodes 0b00000000000010000000000000010110 = some (.ncdt true false) := by decide

theorem test_decode_nccs : decodes 0b00000000000000000000010000011011 = some (.nccs false true) := by decide

theorem test_decode_sqr : decodes 0b00000000000010000000000000101000 = some (.sqr true false) := by decide

theorem test_decode_dcpl : decodes 0b00000000000000000000010000101001 = some (.dcpl false true) := by decide

theorem test_decode_dcpt : decodes 0b00000000000010000000000000101010 = some (.dcpt true false) := by decide

theorem test_decode_gpf : decodes 0b00000000000000000000010000111101 = some (.gpf false true) := by decide

theorem test_decode_gpl : decodes 0b00000000000010000000000000111110 = some (.gpl true false) := by decide

theorem test_decode_ncct : decodes 0b00000000000000000000010000111111 = some (.ncct false true) := by decide

theorem test_decode_nclip : decodes 0b00000000000000000000000000000110 = some .nclip := by decide

theorem test_decode_avsz3 : decodes 0b00000000000000000000000000101101 = some .avsz3 := by decide

theorem test_decode_avsz4 : decodes 0b00000000000000000000000000101110 = some .avsz4 := by decide

theorem test_decode_mvmva_light : decodes 0b00000000000011001010010000010010 = some (.mvmva true true (.mat .lr) (.vertex 1) (.vec .bk)) := by
  decide

theorem test_decode_mvmva_last_selectors : decodes 0b00000000000001111110000000010010 = some (.mvmva false false .reserved .ir .zero) := by decide

/-- 30_encoding.md R88, 95_test_vectors.md T-E3. -/
theorem test_decode_unrecognised : [0x00, 0x02, 0x14, 0x1C, 0x1E, 0x20, 0x3C].map decodes = List.replicate 7 none := by decide

/-- 95_test_vectors.md T-E5. -/
theorem test_encode_worked :
    [encode (.mvmva true true (.mat .lr) (.vertex 1) (.vec .bk)), encode (.mvmva true false (.mat .rt) (.vertex 2) (.vec .fc)),
      encode (.mvmva true true (.mat .l) .ir .zero)] = [0x000CA412, 0x00094012, 0x000BE412] := by decide

/-! ### The arithmetic helpers -/

/-- 40_arith_core.md R112: the printed reciprocal table, row by row. -/
def unrRows : List (List Nat) :=
  [[0xFF, 0xFD, 0xFB, 0xF9, 0xF7, 0xF5, 0xF3, 0xF1, 0xEF, 0xEE, 0xEC, 0xEA, 0xE8, 0xE6, 0xE4, 0xE3]]
  ++ [[0xE1, 0xDF, 0xDD, 0xDC, 0xDA, 0xD8, 0xD6, 0xD5, 0xD3, 0xD1, 0xD0, 0xCE, 0xCD, 0xCB, 0xC9, 0xC8]]
  ++ [[0xC6, 0xC5, 0xC3, 0xC1, 0xC0, 0xBE, 0xBD, 0xBB, 0xBA, 0xB8, 0xB7, 0xB5, 0xB4, 0xB2, 0xB1, 0xB0]]
  ++ [[0xAE, 0xAD, 0xAB, 0xAA, 0xA9, 0xA7, 0xA6, 0xA4, 0xA3, 0xA2, 0xA0, 0x9F, 0x9E, 0x9C, 0x9B, 0x9A]]
  ++ [[0x99, 0x97, 0x96, 0x95, 0x94, 0x92, 0x91, 0x90, 0x8F, 0x8D, 0x8C, 0x8B, 0x8A, 0x89, 0x87, 0x86]]
  ++ [[0x85, 0x84, 0x83, 0x82, 0x81, 0x7F, 0x7E, 0x7D, 0x7C, 0x7B, 0x7A, 0x79, 0x78, 0x77, 0x75, 0x74]]
  ++ [[0x73, 0x72, 0x71, 0x70, 0x6F, 0x6E, 0x6D, 0x6C, 0x6B, 0x6A, 0x69, 0x68, 0x67, 0x66, 0x65, 0x64]]
  ++ [[0x63, 0x62, 0x61, 0x60, 0x5F, 0x5E, 0x5D, 0x5D, 0x5C, 0x5B, 0x5A, 0x59, 0x58, 0x57, 0x56, 0x55]]
  ++ [[0x54, 0x53, 0x53, 0x52, 0x51, 0x50, 0x4F, 0x4E, 0x4D, 0x4D, 0x4C, 0x4B, 0x4A, 0x49, 0x48, 0x48]]
  ++ [[0x47, 0x46, 0x45, 0x44, 0x43, 0x43, 0x42, 0x41, 0x40, 0x3F, 0x3F, 0x3E, 0x3D, 0x3C, 0x3C, 0x3B]]
  ++ [[0x3A, 0x39, 0x39, 0x38, 0x37, 0x36, 0x36, 0x35, 0x34, 0x33, 0x33, 0x32, 0x31, 0x31, 0x30, 0x2F]]
  ++ [[0x2E, 0x2E, 0x2D, 0x2C, 0x2C, 0x2B, 0x2A, 0x2A, 0x29, 0x28, 0x28, 0x27, 0x26, 0x26, 0x25, 0x24]]
  ++ [[0x24, 0x23, 0x22, 0x22, 0x21, 0x20, 0x20, 0x1F, 0x1E, 0x1E, 0x1D, 0x1D, 0x1C, 0x1B, 0x1B, 0x1A]]
  ++ [[0x19, 0x19, 0x18, 0x18, 0x17, 0x16, 0x16, 0x15, 0x15, 0x14, 0x14, 0x13, 0x12, 0x12, 0x11, 0x11]]
  ++ [[0x10, 0x0F, 0x0F, 0x0E, 0x0E, 0x0D, 0x0D, 0x0C, 0x0C, 0x0B, 0x0A, 0x0A, 0x09, 0x09, 0x08, 0x08]]
  ++ [[0x07, 0x07, 0x06, 0x06, 0x05, 0x05, 0x04, 0x04, 0x03, 0x03, 0x02, 0x02, 0x01, 0x01, 0x00, 0x00]]
  ++ [[0x00]]

theorem test_unr_table : unrRows.flatten = (List.range 257).map unr := by decide +kernel

/-- 95_test_vectors.md T-D. -/
theorem test_divide :
    [divide 0 0, divide 2 1, divide 1 3, divide 0x1ff 0x100, divide 256 2000, divide 0x1234 0x5678, divide 0x7fff 0x4000,
      divide 0x8000 0x4000, divide 0xfffd 0x7fff, divide 0xFE3F 0x7F20, divide 0xffff 0xffff, divide 0xffff 0x8000]
      = [(0x1ffff, true), (0x1ffff, true), (0x5555, false), (0x1ff00, false), (0x20C5, false), (0x35E5, false), (0x1FFFC, false),
        (0x1ffff, true), (0x1FFFC, false), (0x1ffff, false), (0xffff, false), (0x1FFFE, false)] := by decide

/-- 95_test_vectors.md T-A. -/
theorem test_lzcount : [0, 1, 0x00010000, 0x7fffffff, 0x80000000, 0xC0000000, 0xFFFF0000, 0xffffffff].map lzcount
    = [32, 31, 15, 1, 1, 2, 16, 32] := by decide

/-- 95_test_vectors.md T-A: the 44-bit check at its edges. -/
theorem test_chk44 : [wrap44 (2 ^ 43 - 1), wrap44 (2 ^ 43), wrap44 (-2 ^ 43), wrap44 (-2 ^ 43 - 1)]
      = [2 ^ 43 - 1, -2 ^ 43, -2 ^ 43, 2 ^ 43 - 1]
    ∧ [chk44Flags .one (2 ^ 43 - 1), chk44Flags .one (2 ^ 43), chk44Flags .two (-2 ^ 43), chk44Flags .three (-2 ^ 43 - 1)]
      = [0, flagMask (.macPos .one), 0, flagMask (.macNeg .three)] := by decide

/-- 95_test_vectors.md T-A: `F` and `setMac(0, 2^32 + 5)`. -/
theorem test_mac0 : [mac0Flags (2 ^ 31 - 1), mac0Flags (2 ^ 31), mac0Flags (-2 ^ 31), mac0Flags (-2 ^ 31 - 1)]
      = [0, flagMask .mac0Pos, 0, flagMask .mac0Neg]
    ∧ (setMac0 (2 ^ 32 + 5) RegFile.reset).mac0 = 5 := by decide

/-- 95_test_vectors.md T-A: `A(1, v)`. -/
theorem test_accumulate : [accumulate true 0xFFF, accumulate true (-1), accumulate true (-0x1001), accumulate false 0x100001000]
    = [0, -1, -2, 0x1000] := by decide

/-! ### READ and WRITE -/

/-- 95_test_vectors.md T-REG1 to T-REG5, T-REG8: packed, truncated and widened fields. -/
theorem test_write_fields :
    reads [0, 1, 6, 7, 8, 16] (load [(0, 0x8001FFFE), (1, 0x12348000), (6, 0xAABBCCDD), (7, 0xFFFF8001), (8, 0x0001F000),
      (16, 0x12345678)]) = [0x8001FFFE, 0xFFFF8000, 0xAABBCCDD, 0x00008001, 0xFFFFF000, 0x00005678] := by decide

/-- 95_test_vectors.md T-REG6: a bare write to `IR1` clamps. -/
theorem test_write_ir : [0x00008000, 0xFFFF7FFF, 0x80000000, 0xFFFFFFFF].map (fun w => reads [9, 63] (load [(9, w)]))
    = [[0x00007FFF, 0], [0xFFFF8000, 0], [0xFFFF8000, 0], [0xFFFFFFFF, 0]] := by decide

/-- 95_test_vectors.md T-REG7: `SXY3` is `SXY2`, a write does not shift. -/
theorem test_write_sxy3 : reads [12, 13, 14, 15] (load [(12, 0x00010002), (13, 0x00030004), (14, 0x00050006), (15, 0xFFFF8000)])
    = [0x00010002, 0x00030004, 0xFFFF8000, 0xFFFF8000] := by decide

/-- 95_test_vectors.md T-REG12, T-REG14, T-REG15: the views `IRGB` and `ORGB`. -/
theorem test_irgb : reads [28, 29] (load [(9, 0x7FFF), (10, 0xF80), (11, 0xFFFFFF00)]) = [0x3FF, 0x3FF]
    ∧ reads [9, 10, 11, 28] (load [(28, 0xFFFF7C1F), (29, 0x7FFF)]) = [0xF80, 0, 0xF80, 0x7C1F] := by decide

/-- 95_test_vectors.md T-REG16: `LZCS` and `LZCR`. -/
theorem test_lzcr : reads [30, 31] (load [(30, 0xFFFF0000), (31, 5)]) = [0xFFFF0000, 16] := by decide

/-- 95_test_vectors.md T-REG17 to T-REG23, 41_register_access.md R147: the control registers. -/
theorem test_write_control :
    reads [32, 33, 36, 37, 58, 59, 60, 61] (load [(32, 0x80007FFF), (33, 0x00050004), (36, 0x1234ABCD), (37, 0x80000000),
      (58, 0x00018000), (59, 0x00018000), (60, 0xFFFFFFFF), (61, 0x0001FFFF)])
      = [0x80007FFF, 0x00050004, 0xFFFFABCD, 0x80000000, 0xFFFF8000, 0xFFFF8000, 0xFFFFFFFF, 0xFFFFFFFF] := by decide

/-- 95_test_vectors.md T-REG24: the `FLAG` word. -/
theorem test_write_flag : [0xFFFFFFFF, 0x00000FFF, 0x00001000, 0x80000000, 0x00780000, 0x00002000].map
      (fun w => reads [63] (load [(63, w)]))
    = [[0xFFFFF000], [0], [0x00001000], [0], [0x00780000], [0x80002000]] := by decide

/-- 95_test_vectors.md T-X2. -/
theorem test_reset_reads : reads (List.range 64) RegFile.reset
    = List.replicate 31 0 ++ [32] ++ List.replicate 32 0 := by decide

/-! ### One step per instruction -/

/-- 95_test_vectors.md T-P2. -/
theorem test_rtps_depth_cue :
    after (identity 32 ++ [(0, 0x00320064), (1, 0x3E8), (58, 0x100), (59, 0xFF00), (60, 0x01400000), (56, 0xA00000),
    (57, 0x780000)]) 0x00080001 [14, 24, 8, 19, 63] = some [0x008400B9, 0x00FE7700, 0xFE7, 0x3E8, 0] := by decide

/-- 95_test_vectors.md T-P5. -/
theorem test_rtps_overflow :
    after (identity 32 ++ [(37, 0x7FFFFFFF), (0, 0x7FFF), (1, 0x3E8), (58, 0x100)]) 0x00080001 [25, 9, 14, 63] =
    some [0x80007FFE, 0xFFFF8000, 0x0000FC00, 0xC1004000] := by decide

/-- 95_test_vectors.md T-P8 and PR2. -/
theorem test_rtpt :
    after (identity 32 ++ [(39, 0x3E8), (58, 0x100), (0, 0x00320064), (1, 0), (2, 0x0032FF9C), (3, 0), (4, 0xFF9C0000),
    (5, 0x3E8)]) 0x00080030 [12, 13, 14, 16, 17, 18, 19, 63] = some [0x000C0019, 0x000CFFE6, 0xFFF30000, 0, 0x3E8,
    0x3E8, 0x7D0, 0] := by decide

/-- 95_test_vectors.md T-M4. -/
theorem test_mvmva_partial_sums :
    after [(32, 0x80007FFF), (0, 0x7FFF7FFF), (1, 0), (37, 0x7FFFFFFF)] 0x00080012 [25, 9, 63] = some [0x7FFFFFF7,
    0x7FFF, 0xC9000000] := by decide

/-- 95_test_vectors.md T-M2. -/
theorem test_mvmva_ir_lm :
    after (identity 40 ++ [(9, 0xFFFFFFFB), (10, 7), (11, 0x7FFF)]) 0x000BE412 [25, 26, 27, 9, 10, 11, 63] =
    some [0xFFFFFFFB, 7, 32767, 0, 7, 32767, 0x81000000] := by decide

/-- The setup LS of 95_test_vectors.md, part T-L. -/
def lighting : List (Nat × Nat) :=
  identity 40 ++ identity 48 ++ [(0, 0x1000), (1, 0), (45, 0x100), (46, 0x200), (47, 0x300), (53, 0x10), (54, 0x20), (55, 0x30),
    (8, 0x800), (6, 0x2040FF80)]

/-- 95_test_vectors.md T-L1. -/
theorem test_ncds :
    after lighting 0x00080413 [25, 26, 27, 9, 20, 21, 22, 63] = some [0x448, 0x11E, 0x6C, 0x448, 0, 0, 0x20061144,
    0] := by decide +kernel

/-- 95_test_vectors.md T-L2. -/
theorem test_nccs :
    after lighting 0x0008041B [25, 26, 27, 22, 63] = some [0x888, 0x21D, 0xCC, 0x200C2188, 0] := by decide +kernel

/-- 95_test_vectors.md T-L3. -/
theorem test_ncdt :
    after (lighting ++ [(2, 0x1000), (4, 0x1000)]) 0x00080416 [20, 21, 22, 63] = some [0x20061144, 0x20061144,
    0x20061144, 0] := by decide +kernel

/-- 95_test_vectors.md T-L4. -/
theorem test_ncct :
    after (lighting ++ [(2, 0x1000), (4, 0x1000)]) 0x0008043F [20, 21, 22, 63] = some [0x200C2188, 0x200C2188,
    0x200C2188, 0] := by decide +kernel

/-- 95_test_vectors.md T-L6. -/
theorem test_dcps :
    after [(6, 0x30204080), (53, 0xFF0), (54, 0), (55, 0x800), (8, 0x400)] 0x00080010 [25, 26, 27, 22, 63] =
    some [0x9FC, 0x300, 0x380, 0x3038309F, 0] := by decide

/-- 95_test_vectors.md T-L7. -/
theorem test_dcps_saturates :
    after [(6, 0x30204080), (53, 0x10000), (54, 0), (55, 0x800), (8, 0x1000)] 0x00080010 [25, 9, 22, 63] =
    some [0x87FF, 0x7FFF, 0x308000FF, 0x81200000] := by decide

/-- 95_test_vectors.md T-L8. -/
theorem test_dcpt :
    after [(20, 0x01FF0000), (21, 0x0200FF00), (22, 0x030000FF), (6, 0x55000000), (8, 0x800)] 0x0008002A [20, 21, 22,
    25, 63] = some [0x557F0000, 0x55007F00, 0x5500007F, 0x7F8, 0] := by decide

/-- 95_test_vectors.md T-L9. -/
theorem test_dcpl :
    after [(6, 0x30FF8040), (9, 0x1000), (10, 0x800), (11, 0x400), (8, 0x800), (53, 0x100), (54, 0x100), (55,
    0x100)] 0x00080029 [25, 26, 27, 22, 63] = some [0x280, 0x280, 0x27E, 0x30272828, 0] := by decide

/-- 95_test_vectors.md T-L10. -/
theorem test_intpl :
    after [(9, 0x100), (10, 0x200), (11, 0xFFFFFD00), (53, 0x300), (54, 0x200), (55, 0x100), (8, 0x800), (6,
    0x77000000)] 0x00080411 [25, 26, 27, 11, 22, 63] = some [0x200, 0x200, 0xFFFFFF00, 0, 0x77002020,
    0x00480000] := by decide

/-- 95_test_vectors.md T-U2. -/
theorem test_gpf :
    after [(8, 0x800), (9, 0x100), (10, 0x200), (11, 0xFFFFFC00), (6, 0x12000000)] 0x0000003D [25, 27, 9, 11, 22, 63] =
    some [0x80000, 0xFFE00000, 0x7FFF, 0xFFFF8000, 0x1200FFFF, 0x81F80000] := by decide

/-- 95_test_vectors.md T-U3. -/
theorem test_gpl :
    after [(8, 0x800), (9, 0x100), (10, 0x200), (11, 0xFFFFFC00), (6, 0x12000000), (25, 0x10), (26, 0x20), (27,
    0x300)] 0x0008003E [25, 26, 27, 22, 63] = some [0x90, 0x120, 0x100, 0x12101209, 0] := by decide

/-- 95_test_vectors.md T-U5. -/
theorem test_gpl_overflow :
    after [(25, 0x7FFFFFFF), (26, 0x80000000), (8, 0x1000), (9, 0x7FFF), (10, 0)] 0x0008003E [25, 9, 10, 22, 63] =
    some [0x80007FFE, 0xFFFF8000, 0xFFFF8000, 0, 0xC1B00000] := by decide

/-- 95_test_vectors.md T-U7. -/
theorem test_sqr :
    after [(9, 0x7FFF), (10, 0xFFFF8000), (11, 0xB5)] 0x00000028 [25, 26, 27, 9, 11, 63] = some [0x3FFF0001,
    0x40000000, 0x7FF9, 0x7FFF, 0x7FF9, 0x81800000] := by decide

/-- 95_test_vectors.md T-U8. -/
theorem test_op :
    after [(32, 3), (34, 4), (36, 5), (9, 10), (10, 20), (11, 30)] 0x0000040C [25, 26, 27, 9, 10, 11, 63] = some [20,
    0xFFFFFFD8, 20, 20, 0, 20, 0x80800000] := by decide

/-- 95_test_vectors.md T-U11. -/
theorem test_nclip :
    after [(12, 0x80008000), (13, 0x80007FFF), (14, 0x7FFF8000)] 0x00000006 [24, 63] = some [0xFFFE0001,
    0x80010000] := by decide

/-- 95_test_vectors.md T-U11, the points exchanged. -/
theorem test_nclip_negative :
    after [(12, 0x80008000), (13, 0x7FFF8000), (14, 0x80007FFF)] 0x00000006 [24, 63] = some [0x0001FFFF,
    0x80008000] := by decide

/-- 95_test_vectors.md T-U12. -/
theorem test_avsz3 :
    after [(16, 100), (17, 200), (18, 300), (19, 400), (61, 0x555)] 0x0000002D [24, 7, 63] = some [0x0012BED4, 0x12B,
    0] := by decide

/-- 95_test_vectors.md T-U14. -/
theorem test_avsz4 :
    after [(16, 0xFFFF), (17, 0xFFFF), (18, 0xFFFF), (19, 0xFFFF), (62, 0x7FFF)] 0x0000002E [24, 7, 63] =
    some [0xFFFA0004, 0, 0x80050000] := by decide

/-- 95_test_vectors.md T-E2: the ignored bits all ones. -/
theorem test_ignored_bits :
    after (identity 32 ++ [(4, 0x00020001), (5, 3), (53, 10), (54, 20), (55, 30)]) 0xFFF95BD2 [25, 26, 27, 9, 10, 11, 63]
      = some [11, 22, 33, 11, 22, 33, 0] := by decide

/-- 95_test_vectors.md T-E3: an unrecognised opcode clears `FLAG` and answers false. -/
theorem test_unrecognised :
    step ((start [(9, 5), (63, 0x7FFFF000)]).withFetchWord 32 0x00080014)
      = .next { regs := load [(9, 5)], pending := [], response := .recognised false } := by rfl

/-- 95_test_vectors.md T-E6, 43_mvmva.md R172: the reserved matrix is refused. -/
theorem test_reserved_matrix_refused : step (State.reset.withFetchWord 32 0x00060012) = .refused .reservedMatrix := by rfl

/-- 43_mvmva.md R172: with RESERVED_MATRIX supplied the form runs rule R170; here with `L`, the data of T-M2. -/
theorem test_reserved_matrix_configured :
    (match mvmva { params with reservedMatrix := some (fun r => r.l) } true true .reserved .ir .zero
        (start (identity 40 ++ [(9, 0xFFFFFFFB), (10, 7), (11, 0x7FFF)])) with
      | .next t => reads [25, 26, 27, 9] t.regs
      | .fault _ => []
      | .refused _ => []) = [0xFFFFFFFB, 7, 32767, 0] := by decide

/-- 95_test_vectors.md T-L5: the console's stage order. -/
theorem test_console_order :
    reads [25, 26, 27, 22] (nc { params with lightPipeline := .console } true true 0 true (load lighting))
      = [0x448, 0x10F, 0x78, 0x20071044]
    ∧ reads [25, 26, 27, 22] (nc { params with lightPipeline := .console } true true 0 false (load lighting))
      = [0x880, 0x1FE, 0xC0, 0x200C1F88] := by decide +kernel

/-- 95_test_vectors.md T-P9: RTPS_DEPTH_CUE = false. -/
theorem test_no_depth_cue :
    reads [14, 24, 8, 19] (rtp { params with rtpsDepthCue := false } true false 0 true
      (load (identity 32 ++ [(0, 0x00320064), (1, 0x3E8), (58, 0x100), (59, 0xFF00), (60, 0x01400000), (56, 0xA00000),
        (57, 0x780000)]))) = [0x008400B9, 0x0084CCC2, 0, 0x3E8] := by decide

/-- Another value of every map of 00_scope.md R5: the fields in another order, each opcode number complemented, the
conditions in the reverse order with `IR1_SAT` alone in the error subset, each index one further, and the data of
95_test_vectors.md T-U7 in the registers at reset. -/
def otherMaps : Config RegFile :=
  { params with
    cmdFields := { opcode := 26, lm := 1, tx := 6, vx := 4, mx := 2, sf := 0 }
    opcodes := fun o => ~~~opcodeOf o
    flagMap := { bit := fun f => 42 - flagBit f, errorMask := 0x00040000 }
    regMap := fun idx => regMap (idx - 1)
    resetState := load [(9, 0x7FFF), (10, 0xFFFF8000), (11, 0xB5)] }

/-- 95_test_vectors.md T-U7 under the other maps: `sqr` is opcode 17 (hex) in bits 31:26, `MAC1` is index 26, `FLAG` is index
0, and `IR1_SAT`, `IR2_SAT` are bits 18 and 19. -/
theorem test_sqr_under_other_maps :
    (match stepWith otherMaps { State.resetWith otherMaps with pending := [.command 0x5C000000] } with
      | .next t => [26, 10, 0].map fun idx => (readIndexWith otherMaps idx t.regs).toNat
      | .fault _ => []
      | .refused _ => []) = [0x3FFF0001, 0x7FFF, 0x800C0000] := by decide

/-- 41_register_access.md R156 under the other maps: a `WRITE` of `FLAG` keeps the bits that hold a condition. -/
theorem test_write_flag_under_other_maps :
    (readIndexWith otherMaps 0 (writeIndexWith otherMaps 0 0xFFFBFFFF RegFile.reset)).toNat = 0x7FFBF000 := by decide

/-! ### Witnesses: a state and operands that meet every hypothesis of a statement -/

/-- A state with `FLAG` set, one transaction issued. -/
def issued (t : Transaction) : State := { start [(9, 5), (63, 0x7FFFF000)] with pending := [t] }

theorem witness_IgnoredBitsExecuteIdentically :
    (0x4A180001 : Word) &&& 0x000FE43F = 0x00080001 &&& 0x000FE43F ∧
      (0x000FE001 : Word) &&& 0x3F ≠ 0x12 ∧ (0x000FE001 : Word) &&& 0x0008043F = 0x00080001 &&& 0x0008043F := by decide

/-- Every opcode clause has its word, and so has the last clause. -/
theorem witness_OpcodeTableDecodes :
    (∀ op ∈ opcodeValues, ((BitVec.ofNat 32 op : Word).toNat % 64) = op) ∧ (0x3C : Word).toNat % 64 ∉ opcodeValues ∧
      (0x00060012 : Word).toNat / 2 ^ 17 % 4 = 3 ∧ (0x00018012 : Word).toNat / 2 ^ 15 % 4 = 3 ∧
      (0x00006012 : Word).toNat / 2 ^ 13 % 4 = 3 := by decide

theorem witness_StepRunsDecodedInstruction :
    ((issued (.command 0x00080028)).pending = .command 0x00080028 :: [] ∧ decode 0x00080028 = .ok (.sqr true false)) ∧
      (issued (.command 0)).pending = .command 0 :: [] ∧ decode 0 = .error (.unrecognised 0) :=
  ⟨⟨rfl, rfl⟩, rfl, rfl⟩

theorem witness_SqrResult_MvmvaResult : (0x00080428 : Word).toNat % 64 = 0x28 ∧ (0x000BA012 : Word).toNat % 64 = 0x12 := by decide

theorem witness_UnrecognisedCommandClearsFlagOnly :
    (issued (.command 0x00000000)).pending = .command 0x00000000 :: [] ∧ (0x00000000 : Word).toNat % 64 ∉ opcodeValues := by
  decide

theorem witness_StepPerformsReadAndWrite :
    (issued (.read 63)).pending = .read 63 :: [] ∧ (issued (.write 0 7)).pending = .write 0 7 :: [] := by decide

theorem witness_AcceptedScriptRunsInOrder :
    scriptAccepted { State.reset with pending := [.write 9 5, .command 0x00080028, .command 0, .read 25] } = true := by decide

/-- The stopping clause, and the going-on clause at the two boundary words around it and with nothing issued. -/
theorem witness_OnlyReservedMatrixStops :
    ((issued (.command 0x00060012)).pending = .command 0x00060012 :: [] ∧ (0x00060012 : Word).toNat % 64 = 0x12 ∧
      (0x00060012 : Word).toNat / 2 ^ 17 % 4 = 3) ∧
    (∀ cmd rest, (issued (.command 0x00040012)).pending = .command cmd :: rest →
      ¬(cmd.toNat % 64 = 0x12 ∧ cmd.toNat / 2 ^ 17 % 4 = 3)) ∧
    (∀ cmd rest, (issued (.command 0x00060013)).pending = .command cmd :: rest →
      ¬(cmd.toNat % 64 = 0x12 ∧ cmd.toNat / 2 ^ 17 % 4 = 3)) ∧
    (∀ cmd rest, State.reset.pending = .command cmd :: rest → ¬(cmd.toNat % 64 = 0x12 ∧ cmd.toNat / 2 ^ 17 % 4 = 3)) := by
  refine ⟨by decide, ?_, ?_, ?_⟩
  · intro cmd rest h
    have hc : (0x00040012 : Word) = cmd := by
      injection h with h1 _
      injection h1
    subst hc
    decide
  · intro cmd rest h
    have hc : (0x00060013 : Word) = cmd := by
      injection h with h1 _
      injection h1
    subst hc
    decide
  · intro cmd rest h
    cases h

theorem witness_LogListsTheTransactionTaken :
    (issued (.read 63)).pending = .read 63 :: [] ∧ ∃ u, step (issued (.read 63)) = .next u := by
  exact ⟨rfl, _, rfl⟩

theorem witness_WriteChangesOnlyItsReaders :
    (13 : BitVec 6).toNat ∉ readersOf (14 : BitVec 6).toNat ∧ (9 : BitVec 6).toNat ∉ readersOf (29 : BitVec 6).toNat ∧
      (12 : BitVec 6).toNat ∉ readersOf (9 : BitVec 6).toNat ∧ (30 : BitVec 6).toNat ∉ readersOf (31 : BitVec 6).toNat ∧
      (32 : BitVec 6).toNat ∉ readersOf (30 : BitVec 6).toNat ∧ (8 : BitVec 6).toNat ∉ readersOf (28 : BitVec 6).toNat := by
  decide

theorem witness_LeadingCountInRange :
    (0 < (1 : Word).toInt ∧ 0 < (0x7fffffff : Word).toInt) ∧ (0x80000000 : Word).toInt < 0 ∧ (0xffffffff : Word).toInt < 0 := by
  decide

theorem witness_FlagsOnlyAccumulate :
    ∃ t, exec (.sqr false false) ((issued (.read 0)).withRegs { (issued (.read 0)).regs with flag := 0 }) = .next t :=
  ⟨_, rfl⟩

theorem witness_InstructionsKeepHostRegisters : ∃ t, exec .nclip (issued (.read 0)) = .next t := ⟨_, rfl⟩

theorem witness_FrameOfLaneInstructions :
    ∀ i ∈ [Instr.sqr true false, .op true false, .mvmva true false (.mat .l) .ir .zero],
      ∃ t, exec i (issued (.read 0)) = .next t := by
  intro i hi
  simp only [List.mem_cons, List.not_mem_nil, or_false] at hi
  rcases hi with rfl | rfl | rfl <;> exact ⟨_, rfl⟩

theorem witness_FrameOfColourInstructions :
    ∀ i ∈ [Instr.ncds true false, .nccs true false, .ncdt true false, .ncct true false, .dcps true false, .dcpt true false,
      .dcpl true false, .intpl true false, .gpf true false, .gpl true false], ∃ t, exec i (issued (.read 0)) = .next t := by
  intro i hi
  simp only [List.mem_cons, List.not_mem_nil, or_false] at hi
  rcases hi with rfl | rfl | rfl | rfl | rfl | rfl | rfl | rfl | rfl | rfl <;> exact ⟨_, rfl⟩

theorem witness_FrameOfScalarInstructions :
    (∃ t, exec .nclip (issued (.read 0)) = .next t) ∧ ∀ i ∈ [Instr.avsz3, .avsz4], ∃ t, exec i (issued (.read 0)) = .next t := by
  refine ⟨⟨_, rfl⟩, fun i hi => ?_⟩
  simp only [List.mem_cons, List.not_mem_nil, or_false] at hi
  rcases hi with rfl | rfl <;> exact ⟨_, rfl⟩

theorem witness_FrameOfProjection :
    ∀ i ∈ [Instr.rtps true false, .rtpt true false], ∃ t, exec i (issued (.read 0)) = .next t := by
  intro i hi
  simp only [List.mem_cons, List.not_mem_nil, or_false] at hi
  rcases hi with rfl | rfl <;> exact ⟨_, rfl⟩

theorem witness_LmKeepsIrNonNegative :
    lmOf (.sqr false true) = some true ∧ ∃ t, exec (.sqr false true) (issued (.read 0)) = .next t := ⟨rfl, _, rfl⟩

/-- A state in the screen range with a projection issued, and one with a host write beside the FIFO. -/
theorem witness_ScreenRangeKeptByEveryStep :
    ScreenInv (issued (.command 0x00080001)) ∧ (∃ t, step (issued (.command 0x00080001)) = .next t) ∧
      ScreenInv (issued (.write 16 7)) ∧ ∃ t, step (issued (.write 16 7)) = .next t :=
  ⟨⟨rfl, rfl, rfl, rfl⟩, ⟨_, rfl⟩, ⟨rfl, rfl, rfl, rfl⟩, ⟨_, rfl⟩⟩

/-- The corners of the screen range. -/
theorem witness_NclipInScreenRangeRaisesNothing :
    let r := load [(12, 0xFC00FC00), (13, 0xFC0003FF), (14, 0x03FFFC00)]
    inScreenRange r.sxy0 = true ∧ inScreenRange r.sxy1 = true ∧ inScreenRange r.sxy2 = true := by decide

/-- Both sides of the overflow test, at its boundary, and the divisor 0. -/
theorem witness_DivideSaturatesOrApproximates :
    2 * (200 : Half).toNat ≤ (400 : Half).toNat ∧ (399 : Half).toNat < 2 * (200 : Half).toNat ∧
      2 * (0 : Half).toNat ≤ (0 : Half).toNat := by decide

theorem witness_NclipOfCollinearPointsIsZero :
    let r := load [(12, 0x00010001), (13, 0x00020002), (14, 0x00030003)]
    r.sxy1.x.toInt = r.sxy0.x.toInt + 1 * 1 ∧ r.sxy1.y.toInt = r.sxy0.y.toInt + 1 * 1 ∧
      r.sxy2.x.toInt = r.sxy0.x.toInt + 2 * 1 ∧ r.sxy2.y.toInt = r.sxy0.y.toInt + 2 * 1 := by decide

theorem witness_ReservedMatrixRefusedOrConfigured :
    (0x00060012 : Word).toNat % 64 = 0x12 ∧ (0x00060012 : Word).toNat / 2 ^ 17 % 4 = 3 := by decide

theorem witness_MatrixStagesAreMvmva :
    (∃ t u, exec (.rtps true false) (issued (.read 0)) = .next t ∧
      exec (.mvmva true false (.mat .rt) (.vertex 0) (.vec .tr)) (issued (.read 0)) = .next u) ∧
    ∃ u w, exec (.mvmva true false (.mat .l) (.vertex 0) (.vec .bk)) (issued (.read 0)) = .next u ∧
      exec (.mvmva true false (.mat .lr) .ir (.vec .fc)) u = .next w :=
  ⟨⟨_, _, rfl, rfl⟩, _, _, rfl, rfl⟩

theorem witness_Res1HasNoHardwareEffect :
    (∃ t, exec (.sqr false false) (issued (.read 0)) = .next t) ∧
      exec (.mvmva false false .reserved .ir .zero) (issued (.read 0)) = .refused .reservedMatrix ∧
      params.regMap 23 = .res1 ∧ params.regMap 22 ≠ .res1 ∧ params.regMap 24 ≠ .res1 :=
  ⟨⟨_, rfl⟩, rfl, rfl, by decide, by decide⟩

theorem witness_OtzWrittenByAverageZAndHostOnly :
    (∃ t, exec .nclip (issued (.read 0)) = .next t) ∧ (∃ t, exec .avsz4 (issued (.read 0)) = .next t) ∧
      exec (.mvmva false false .reserved .ir .zero) (issued (.read 0)) = .refused .reservedMatrix ∧
      params.regMap 7 = .otz ∧ params.regMap 6 ≠ .otz ∧ params.regMap 8 ≠ .otz :=
  ⟨⟨_, rfl⟩, ⟨_, rfl⟩, rfl, rfl, by decide, by decide⟩

/-- The default maps and the other ones are legal, and an opcode is no instruction's number. -/
theorem witness_LegalMapsRoundTrip :
    LegalEncoding encoding ∧ LegalEncoding otherMaps.toEncoding ∧ LegalFlagMap flagMap ∧ LegalFlagMap otherMaps.flagMap ∧
      ∀ o, encoding.opcodes o ≠ (0x3C : Word).extractLsb' encoding.cmdFields.opcode 6 := by
  refine ⟨Laws.legalEncoding_encoding, ⟨by decide, fun o o' => by cases o <;> cases o' <;> decide⟩, Laws.legalFlagMap_flagMap,
    ⟨fun f => ?_, fun f g => ?_, by decide⟩, fun o => by cases o <;> decide⟩
  · rcases f with ⟨_ | _ | _⟩ | ⟨_ | _ | _⟩ | ⟨_ | _ | _⟩ | ⟨_ | _ | _⟩ | _ | _ | _ | _ | _ | _ | _ <;> decide
  · rcases f with ⟨_ | _ | _⟩ | ⟨_ | _ | _⟩ | ⟨_ | _ | _⟩ | ⟨_ | _ | _⟩ | _ | _ | _ | _ | _ | _ | _ <;>
    rcases g with ⟨_ | _ | _⟩ | ⟨_ | _ | _⟩ | ⟨_ | _ | _⟩ | ⟨_ | _ | _⟩ | _ | _ | _ | _ | _ | _ | _ <;> decide

end Sys2Proof.Tests
end

section
/-! Raised flags pass through every operation of the core: what an instruction does to a register file with more conditions
stored is what it does without them, with those conditions joined (spec/00_scope.md R11, spec/40_arith_core.md R120 (f)). -/

namespace Sys2Proof.Proofs

open Sys2Proof Sys2Proof.Machine Sys2Proof.Safety Sys2Proof.Laws

/-- An effect on the register file neither reads nor clears `FLAG`: flags raised before it may as well be raised after it. -/
def CommutesWithRaise (f : RegFile → RegFile) : Prop := ∀ (m : BitVec 19) (r : RegFile), f (raise m r) = raise m (f r)

/-! ### The operands do not read `FLAG` -/

section Operands

variable (m : BitVec 19) (r : RegFile)

@[simp] theorem vertexVec_raise (n : Fin 3) : vertexVec n (raise m r) = vertexVec n r := rfl
@[simp] theorem transVec_raise (t : TransName) : transVec t (raise m r) = transVec t r := rfl
@[simp] theorem irVec_raise : irVec (raise m r) = irVec r := rfl
@[simp] theorem matrix_raise (a : MatrixName) : matrix a (raise m r) = matrix a r := rfl
@[simp] theorem vectorOf_raise (vx : VectorSel) : vectorOf vx (raise m r) = vectorOf vx r := rfl
@[simp] theorem transOf_raise (tx : TransSel) : transOf tx (raise m r) = transOf tx r := rfl
@[simp] theorem lightTimesColor_raise : lightTimesColor (raise m r) = lightTimesColor r := rfl
@[simp] theorem irBase_raise : irBase (raise m r) = irBase r := rfl
@[simp] theorem gplSums_raise (sf : Bool) : gplSums sf (raise m r) = gplSums sf r := rfl
@[simp] theorem opSums_raise : opSums (raise m r) = opSums r := rfl
@[simp] theorem nclipValue_raise : nclipValue (raise m r) = nclipValue r := rfl

end Operands

/-! ### The shared operations -/

section Operations

variable (sf lm : Bool) (m : BitVec 19) (r : RegFile)

/-- Two sets of conditions may be raised in either order. -/
theorem raise_comm (m' : BitVec 19) : raise m' (raise m r) = raise m (raise m' r) := by
  rw [raise_raise, raise_raise, BitVec.or_comm]

/-- A union of flag words in another order. -/
theorem flag_or_right_comm (a b c : BitVec 19) : a ||| b ||| c = a ||| c ||| b := by
  rw [BitVec.or_assoc, BitVec.or_comm b, BitVec.or_assoc]

@[simp] theorem setLanes_raise (v : Vec3 Int) : setLanes sf lm v (raise m r) = raise m (setLanes sf lm v r) := by
  simp [setLanes_eq, raise, flag_or_right_comm _ m]

@[simp] theorem mvma_raise (a : Mat3) (v t : Vec3 Int) : mvma sf lm a v t (raise m r) = raise m (mvma sf lm a v t r) := by
  rw [mvma, raise_comm, setLanes_raise, mvma]

@[simp] theorem interpolate_raise (b : Vec3 Int) :
    interpolate sf lm b (raise m r) = raise m (interpolate sf lm b r) := by
  simp [interpolate]

@[simp] theorem pushColor_raise : pushColor (raise m r) = raise m (pushColor r) := by
  simp [pushColor_eq, raise, flag_or_right_comm _ m]

@[simp] theorem setMac0_raise (v : Int) : setMac0 v (raise m r) = raise m (setMac0 v r) := by
  simp [setMac0_eq, raise, flag_or_right_comm _ m]

@[simp] theorem setOtz_raise : setOtz (raise m r) = raise m (setOtz r) := by
  simp [setOtz_eq, raise, flag_or_right_comm _ m]

@[simp] theorem pushScreenZ_raise (z : Int) : pushScreenZ z (raise m r) = raise m (pushScreenZ z r) := by
  simp [pushScreenZ_eq, raise, flag_or_right_comm _ m]

@[simp] theorem pushScreenXY_raise (x y : Int) : pushScreenXY x y (raise m r) = raise m (pushScreenXY x y r) := by
  simp [pushScreenXY_eq, raise, flag_or_right_comm _ m]

end Operations

/-! ### The shared datapaths -/

section Datapaths

variable (c : Config RegFile) (sf lm : Bool) (n : Fin 3) (m : BitVec 19) (r : RegFile)

@[simp] theorem colmul_raise : colmul sf lm (raise m r) = raise m (colmul sf lm r) := by simp [colmul]

@[simp] theorem nc_raise (cue : Bool) : nc c sf lm n cue (raise m r) = raise m (nc c sf lm n cue r) := by
  unfold nc
  split
  · cases cue <;> simp [ncDocument]
  · cases cue <;> simp [ncConsole]

@[simp] theorem dcp_raise (k : Color) : dcp sf lm k (raise m r) = raise m (dcp sf lm k r) := by simp [dcp]

@[simp] theorem dcpOldest_raise : dcpOldest sf lm (raise m r) = raise m (dcpOldest sf lm r) := by simp [dcpOldest]

@[simp] theorem projectXY_raise (q : Int) : projectXY q (raise m r) = raise m (projectXY q r) := by simp [projectXY]

@[simp] theorem depthCue_raise (q : Int) : depthCue q (raise m r) = raise m (depthCue q r) := by
  simp [depthCue, setMac0_eq, raise, flag_or_right_comm _ m]

@[simp] theorem rtp_raise (last : Bool) : rtp c sf lm n last (raise m r) = raise m (rtp c sf lm n last r) := by
  simp only [rtp, vertexVec_raise, transVec_raise, raise_toInputRegs, mvma_raise, pushScreenZ_raise, raise_sz3,
    raise_comm m, projectXY_raise, depthCue_raise]
  split <;> rfl

end Datapaths

/-! ### The instructions -/

/-- The one instruction that is refused is `mvmva` with the reserved matrix (43_mvmva.md R172). -/
theorem wellFormed_of_exec_next {i : Instr} {s t : State} (h : exec i s = .next t) : i.wellFormed = true := by
  cases i with
  | mvmva sf lm mx vx tx =>
    cases mx with
    | mat a => rfl
    | reserved => cases h
  | _ => rfl

/-- Every well-formed instruction is one effect on the register file, which commutes with raising flags
(40_arith_core.md R120 (f)). -/
theorem exec_commutesWithRaise {i : Instr} (hi : i.wellFormed = true) :
    ∃ f, CommutesWithRaise f ∧ ∀ s, exec i s = complete f s := by
  cases i with
  | rtps sf lm => exact ⟨rtp params sf lm 0 true, fun m r => by simp, fun s => rfl⟩
  | nclip => exact ⟨fun r => setMac0 (nclipValue r) r, fun m r => by simp, fun s => rfl⟩
  | op sf lm => exact ⟨fun r => setLanes sf lm (opSums r) r, fun m r => by simp, fun s => rfl⟩
  | dcps sf lm => exact ⟨fun r => dcp sf lm r.rgbc r, fun m r => by simp, fun s => rfl⟩
  | intpl sf lm => exact ⟨fun r => pushColor (interpolate sf lm (irBase r) r), fun m r => by simp, fun s => rfl⟩
  | mvmva sf lm mx vx tx =>
    cases mx with
    | mat a =>
      exact ⟨fun r => mvma sf lm (matrix a r) (vectorOf vx r) (transOf tx r) r, fun m r => by simp, fun s => by
        rw [complete_eq]
        rfl⟩
    | reserved => cases hi
  | ncds sf lm => exact ⟨nc params sf lm 0 true, fun m r => by simp, fun s => rfl⟩
  | ncdt sf lm =>
    exact ⟨fun r => nc params sf lm 2 true (nc params sf lm 1 true (nc params sf lm 0 true r)), fun m r => by simp,
      fun s => rfl⟩
  | nccs sf lm => exact ⟨nc params sf lm 0 false, fun m r => by simp, fun s => rfl⟩
  | sqr sf lm =>
    exact ⟨fun r => setLanes sf lm ((irVec r).map fun v => v * v) r, fun m r => by simp, fun s => rfl⟩
  | dcpl sf lm =>
    exact ⟨fun r => pushColor (interpolate sf lm (lightTimesColor r) r), fun m r => by simp, fun s => rfl⟩
  | dcpt sf lm =>
    exact ⟨fun r => dcpOldest sf lm (dcpOldest sf lm (dcpOldest sf lm r)), fun m r => by simp, fun s => rfl⟩
  | avsz3 =>
    exact ⟨fun r => setOtz (setMac0 (r.zsf3.toInt * (unsignedVal r.sz1 + unsignedVal r.sz2 + unsignedVal r.sz3)) r),
      fun m r => by simp, fun s => rfl⟩
  | avsz4 =>
    exact ⟨fun r => setOtz (setMac0
      (r.zsf4.toInt * (unsignedVal r.sz0 + unsignedVal r.sz1 + unsignedVal r.sz2 + unsignedVal r.sz3)) r),
      fun m r => by simp, fun s => rfl⟩
  | rtpt sf lm =>
    exact ⟨fun r => rtp params sf lm 2 true (rtp params sf lm 1 false (rtp params sf lm 0 false r)), fun m r => by simp,
      fun s => rfl⟩
  | gpf sf lm =>
    exact ⟨fun r => pushColor (setLanes sf lm ((irVec r).map fun v => r.ir0.toInt * v) r), fun m r => by simp, fun s => rfl⟩
  | gpl sf lm => exact ⟨fun r => pushColor (setLanes sf lm (gplSums sf r) r), fun m r => by simp, fun s => rfl⟩
  | ncct sf lm =>
    exact ⟨fun r => nc params sf lm 2 false (nc params sf lm 1 false (nc params sf lm 0 false r)), fun m r => by simp,
      fun s => rfl⟩

/-- No instruction reads or clears `FLAG`: flags raised before it are joined to those it leaves (40_arith_core.md R120 (f)). -/
theorem exec_raise {i : Instr} {s t : State} (h : exec i s = .next t) (m : BitVec 19) :
    exec i (s.withRegs (raise m s.regs)) = .next (t.withRegs (raise m t.regs)) := by
  obtain ⟨f, hf, hexec⟩ := exec_commutesWithRaise (wellFormed_of_exec_next h)
  rw [hexec, complete_eq] at h
  cases h
  rw [hexec, complete_eq, withRegs_regs, hf, withRegs_withRegs, withRegs_withRegs, withRegs_regs]

/-- Storing flags is raising them from an empty `FLAG`. -/
theorem raise_emptyFlag (r : RegFile) (fl : BitVec 19) : raise fl { r with flag := 0 } = { r with flag := fl } := by
  simp [raise]

/-- Settles O23: every instruction commutes with raising flags, and storing `fl` is raising it from an empty `FLAG`. -/
theorem flagsOnlyAccumulate : Obligations.FlagsOnlyAccumulate := by
  intro i s t fl h
  have hr := exec_raise h fl
  rwa [withRegs_withRegs, withRegs_regs, raise_emptyFlag, raise, BitVec.or_comm] at hr

end Sys2Proof.Proofs
end

section
/-! Every legal map round-trips: command words under every legal encoding, and the word of `FLAG` under every legal FLAGMAP
(spec/00_scope.md R5). -/

namespace Sys2Proof.Proofs

open Sys2Proof Sys2Proof.Machine Sys2Proof.Safety Sys2Proof.Laws

/-! ### The command word -/

@[simp] theorem matrixSel_bits (mx : MatrixSel) : matrixSel mx.bits = mx := by
  cases mx with
  | mat a => cases a <;> rfl
  | reserved => rfl

@[simp] theorem vectorSel_bits (vx : VectorSel) : vectorSel vx.bits = vx := by
  cases vx with
  | vertex n => fin_cases n <;> rfl
  | ir => rfl

@[simp] theorem transSel_bits (tx : TransSel) : transSel tx.bits = tx := by
  cases tx with
  | vec a => cases a <;> rfl
  | zero => rfl

/-- The fields of an instruction carry the number of its name, and its name reads the instruction back from them. -/
theorem exists_operation (opcodes : Operation → BitVec 6) (i : Instr) :
    ∃ o : Operation, (i.fieldsWith opcodes).opcode = opcodes o ∧ o.instr (i.fieldsWith opcodes) = i := by
  cases i with
  | mvmva sf lm mx vx tx => exact ⟨.mvmva, rfl, by simp [Operation.instr, Instr.fieldsWith]⟩
  | _ => exact ⟨_, rfl, rfl⟩

/-- Under every legal encoding the word of an instruction decodes to it (30_encoding.md R81, R86, R91). -/
theorem decodeWith_encodeWith {e : Encoding} (he : LegalEncoding e) (i : Instr) : decodeWith e (encodeWith e i) = .ok i := by
  obtain ⟨hlayout, hinj⟩ := he
  obtain ⟨o, hop, hinstr⟩ := exists_operation e.opcodes i
  rw [decodeWith, encodeWith, fieldsOfWith_assembleWith hlayout, decodeFieldsWith, hop, operationWith_of_eq hinj]
  exact congrArg Except.ok hinstr

/-- A number that is no instruction's names none. -/
theorem operationWith_eq_none {opcodes : Operation → BitVec 6} {b : BitVec 6} (h : ∀ o, opcodes o ≠ b) :
    operationWith opcodes b = none :=
  List.find?_eq_none.mpr fun o _ => by simp [h o]

/-- A word whose opcode is no instruction's number is unrecognised, under every encoding (30_encoding.md R88). -/
theorem decodeWith_unrecognised {e : Encoding} {cmd : Word} (h : ∀ o, e.opcodes o ≠ cmd.extractLsb' e.cmdFields.opcode 6) :
    decodeWith e cmd = .error (.unrecognised (cmd.extractLsb' e.cmdFields.opcode 6)) := by
  simp [decodeWith, decodeFieldsWith, fieldsOfWith, operationWith_eq_none h]

/-! ### The word of `FLAG` -/

section FlagWord

variable {m : FlagMap} (hm : LegalFlagMap m) (flag : BitVec 19)

include hm

/-- The condition bits leave bit 31 clear. -/
theorem storedFlagWordWith_bit31 : (storedFlagWordWith m flag).getLsbD 31 = false := by
  obtain ⟨hlt, -, -⟩ := hm
  have hne : ∀ f, m.bit f ≠ 31 := fun f => (hlt f).ne
  rw [storedFlagWordWith_bit]
  simp [hne]

/-- Below bit 31 the word of `FLAG` is the condition bits; bit 31 is the error bit (41_register_access.md R156). -/
theorem flagWordWith_bit (k : Nat) : (flagWordWith m flag).getLsbD k =
    if k = 31 then errorBitWith m flag else (storedFlagWordWith m flag).getLsbD k := by
  rw [flagWordWith, BitVec.getLsbD_or, field_bit _ _ _ (by norm_num)]
  by_cases hk : k = 31
  · rw [hk, storedFlagWordWith_bit31 hm]
    simp
  · have : ¬(31 ≤ k ∧ k < 31 + 1) := by omega
    simp [hk, this]

/-- Each condition stands at the bit FLAGMAP gives it (10_state.md R45). -/
theorem flagWordWith_bit_condition (f : FlagName) : (flagWordWith m flag).getLsbD (m.bit f) = flagAt flag f := by
  have ⟨hlt, hinj, _⟩ := hm
  have hf := hlt f
  rw [flagWordWith_bit hm, if_neg hf.ne, storedFlagWordWith_bit, Bool.eq_iff_iff]
  simp only [Bool.and_eq_true, decide_eq_true_eq, List.any_eq_true]
  constructor
  · rintro ⟨-, g, -, hg, hbit⟩
    rwa [← hinj g f hbit]
  · exact fun h => ⟨by omega, f, mem_conditions f, h, rfl⟩

/-- The error subset reads the same bits with the error bit in the word or without it. -/
theorem flagWordWith_and_errorMask : flagWordWith m flag &&& m.errorMask = storedFlagWordWith m flag &&& m.errorMask := by
  have ⟨_, _, hmask⟩ := hm
  refine BitVec.eq_of_getLsbD_eq fun k _ => ?_
  rw [BitVec.getLsbD_and, BitVec.getLsbD_and, flagWordWith_bit hm]
  split
  next hk => rw [hk, hmask, Bool.and_false, Bool.and_false]
  next => rfl

/-- Bit 31 is the OR of the error subset of the word (10_state.md R46). -/
theorem flagWordWith_bit31 :
    (flagWordWith m flag).getLsbD 31 = decide (flagWordWith m flag &&& m.errorMask ≠ 0) := by
  rw [flagWordWith_bit hm, if_pos rfl, flagWordWith_and_errorMask hm, errorBitWith, bne,
    beq_eq_decide, decide_not]

/-- A `WRITE` of the word a `READ` of `FLAG` returned restores the conditions (41_register_access.md R156). -/
theorem loadFlagsWith_flagWordWith : loadFlagsWith m (flagWordWith m flag) = flag :=
  flag_ext fun f => by rw [flagAt_loadFlagsWith, flagWordWith_bit_condition hm]

end FlagWord

/-- Settles O60: the decoder inverts the encoder under every legal layout and opcode map, and the word of `FLAG` holds the
conditions and the error bit under every legal FLAGMAP. -/
theorem legalMapsRoundTrip : Obligations.LegalMapsRoundTrip :=
  ⟨fun _ i he => decodeWith_encodeWith he i, fun _ _ h => decodeWith_unrecognised h,
    fun _ flag hm => ⟨flagWordWith_bit_condition hm flag, flagWordWith_bit31 hm flag, loadFlagsWith_flagWordWith hm flag⟩⟩

end Sys2Proof.Proofs
end

section
/-! An invariant of the register file that every shared operation keeps is kept by every instruction: the instructions are
built of the operations of spec/40_arith_core.md alone. Two invariants of spec/10_state.md follow: the host's registers (R22 to
R42) and the screen range of the SXY FIFO (R48 (e)). -/

namespace Sys2Proof.Proofs

open Sys2Proof Sys2Proof.Machine Sys2Proof.Safety Sys2Proof.Laws

/-! ### The effect of an instruction -/

/-- The effect of an instruction on the register file; the reserved matrix form has none, since it is refused
(43_mvmva.md R172). -/
def effect : Instr → RegFile → RegFile
  | .rtps sf lm => rtp params sf lm 0 true
  | .nclip => fun r => setMac0 (nclipValue r) r
  | .op sf lm => fun r => setLanes sf lm (opSums r) r
  | .dcps sf lm => fun r => dcp sf lm r.rgbc r
  | .intpl sf lm => fun r => pushColor (interpolate sf lm (irBase r) r)
  | .mvmva sf lm (.mat a) vx tx => fun r => mvma sf lm (matrix a r) (vectorOf vx r) (transOf tx r) r
  | .mvmva _ _ .reserved _ _ => id
  | .ncds sf lm => nc params sf lm 0 true
  | .ncdt sf lm => fun r => nc params sf lm 2 true (nc params sf lm 1 true (nc params sf lm 0 true r))
  | .nccs sf lm => nc params sf lm 0 false
  | .sqr sf lm => fun r => setLanes sf lm ((irVec r).map fun v => v * v) r
  | .dcpl sf lm => fun r => pushColor (interpolate sf lm (lightTimesColor r) r)
  | .dcpt sf lm => fun r => dcpOldest sf lm (dcpOldest sf lm (dcpOldest sf lm r))
  | .avsz3 => fun r => setOtz (setMac0 (r.zsf3.toInt * (unsignedVal r.sz1 + unsignedVal r.sz2 + unsignedVal r.sz3)) r)
  | .avsz4 => fun r => setOtz (setMac0
      (r.zsf4.toInt * (unsignedVal r.sz0 + unsignedVal r.sz1 + unsignedVal r.sz2 + unsignedVal r.sz3)) r)
  | .rtpt sf lm => fun r => rtp params sf lm 2 true (rtp params sf lm 1 false (rtp params sf lm 0 false r))
  | .gpf sf lm => fun r => pushColor (setLanes sf lm ((irVec r).map fun v => r.ir0.toInt * v) r)
  | .gpl sf lm => fun r => pushColor (setLanes sf lm (gplSums sf r) r)
  | .ncct sf lm => fun r => nc params sf lm 2 false (nc params sf lm 1 false (nc params sf lm 0 false r))

/-- A well-formed instruction completes with its effect (60_exceptions.md R220). -/
theorem exec_eq_complete {i : Instr} (hi : i.wellFormed = true) (s : State) : exec i s = complete (effect i) s := by
  cases i with
  | mvmva sf lm mx vx tx =>
    cases mx with
    | mat a =>
      rw [complete_eq]
      rfl
    | reserved => cases hi
  | _ => rfl

/-- What a completed instruction leaves: its effect on the registers, and the host interface. -/
theorem eq_effect_of_exec_next {i : Instr} {s t : State} (h : exec i s = .next t) : t = s.withRegs (effect i s.regs) := by
  rw [exec_eq_complete (wellFormed_of_exec_next h), complete_eq] at h
  cases h
  rfl

/-! ### From the operations to the instructions -/

/-- `P` is kept by every write an instruction can make: raising conditions, the operations of 40_arith_core.md R106 to R118,
and the store of `IR0` that ends the depth cue (42_projection.md R161). -/
structure KeptByOperations (P : RegFile → Prop) : Prop where
  raise : ∀ {m r}, P r → P (raise m r)
  setLanes : ∀ {sf lm v r}, P r → P (setLanes sf lm v r)
  setMac0 : ∀ {v r}, P r → P (setMac0 v r)
  setOtz : ∀ {r}, P r → P (setOtz r)
  setIr0 : ∀ {x : Half} {r : RegFile}, P r → P { r with ir0 := x }
  pushScreenZ : ∀ {z r}, P r → P (pushScreenZ z r)
  pushScreenXY : ∀ {x y r}, P r → P (pushScreenXY x y r)
  pushColor : ∀ {r}, P r → P (pushColor r)

namespace KeptByOperations

variable {P : RegFile → Prop} (hP : KeptByOperations P) {c : Config RegFile} {sf lm : Bool} {n : Fin 3} {r : RegFile}

include hP

theorem mvma {a : Mat3} {v t : Vec3 Int} (h : P r) : P (mvma sf lm a v t r) := hP.setLanes (hP.raise h)

theorem interpolate {b : Vec3 Int} (h : P r) : P (interpolate sf lm b r) := hP.setLanes (hP.setLanes h)

theorem dcp {k : Color} (h : P r) : P (dcp sf lm k r) := hP.pushColor (hP.interpolate h)

theorem ncDocument {cue : Bool} (h : P r) : P (ncDocument sf lm n cue r) := by
  refine hP.pushColor (hP.setLanes ?_)
  cases cue with
  | true => exact hP.interpolate (hP.mvma (hP.mvma h))
  | false => exact hP.mvma (hP.mvma h)

theorem ncConsole {cue : Bool} (h : P r) : P (ncConsole sf lm n cue r) := by
  refine hP.pushColor ?_
  cases cue with
  | true => exact hP.interpolate (hP.mvma (hP.mvma h))
  | false => exact hP.setLanes (hP.mvma (hP.mvma h))

theorem nc {cue : Bool} (h : P r) : P (nc c sf lm n cue r) := by
  unfold Machine.nc
  split
  · exact hP.ncDocument h
  · exact hP.ncConsole h

theorem projectXY {q : Int} (h : P r) : P (projectXY q r) := hP.pushScreenXY (hP.setMac0 (hP.setMac0 h))

theorem depthCue {q : Int} (h : P r) : P (depthCue q r) := hP.setIr0 (hP.raise (hP.setMac0 h))

theorem rtp {last : Bool} (h : P r) : P (rtp c sf lm n last r) := by
  unfold Machine.rtp
  split
  · exact hP.depthCue (hP.projectXY (hP.raise (hP.pushScreenZ (hP.mvma h))))
  · exact hP.projectXY (hP.raise (hP.pushScreenZ (hP.mvma h)))

theorem effect (i : Instr) (h : P r) : P (effect i r) := by
  unfold Proofs.effect
  cases i with
  | rtps sf lm => exact hP.rtp h
  | nclip => exact hP.setMac0 h
  | op sf lm => exact hP.setLanes h
  | dcps sf lm => exact hP.dcp h
  | intpl sf lm => exact hP.pushColor (hP.interpolate h)
  | mvmva sf lm mx vx tx =>
    cases mx with
    | mat a => exact hP.mvma h
    | reserved => exact h
  | ncds sf lm => exact hP.nc h
  | ncdt sf lm => exact hP.nc (hP.nc (hP.nc h))
  | nccs sf lm => exact hP.nc h
  | sqr sf lm => exact hP.setLanes h
  | dcpl sf lm => exact hP.pushColor (hP.interpolate h)
  | dcpt sf lm => exact hP.dcp (hP.dcp (hP.dcp h))
  | avsz3 => exact hP.setOtz (hP.setMac0 h)
  | avsz4 => exact hP.setOtz (hP.setMac0 h)
  | rtpt sf lm => exact hP.rtp (hP.rtp (hP.rtp h))
  | gpf sf lm => exact hP.pushColor (hP.setLanes h)
  | gpl sf lm => exact hP.pushColor (hP.setLanes h)
  | ncct sf lm => exact hP.nc (hP.nc (hP.nc h))

/-- An invariant of the operations is an invariant of every instruction. -/
theorem exec {i : Instr} {s t : State} (hexec : exec i s = .next t) (h : P s.regs) : P t.regs := by
  rw [eq_effect_of_exec_next hexec]
  exact hP.effect i h

end KeptByOperations

/-! ### The registers only the host writes -/

/-- No operation writes an input register (10_state.md R22, R23, R29, R32 to R42). -/
theorem inputRegs_keptByOperations (q : InputRegs) : KeptByOperations fun r => r.toInputRegs = q where
  raise h := h
  setLanes h := by rwa [setLanes_eq]
  setMac0 h := by rwa [setMac0_eq]
  setOtz h := by rwa [setOtz_eq]
  setIr0 h := h
  pushScreenZ h := by rwa [pushScreenZ_eq]
  pushScreenXY h := by rwa [pushScreenXY_eq]
  pushColor h := by rwa [pushColor_eq]

/-- Settles O25: no operation writes an input register, and an instruction's effect is on the register file alone. -/
theorem instructionsKeepHostRegisters : Obligations.InstructionsKeepHostRegisters := by
  intro i s t h
  have hregs := (inputRegs_keptByOperations s.regs.toInputRegs).exec h rfl
  rw [eq_effect_of_exec_next h] at hregs ⊢
  exact ⟨hregs, rfl, rfl⟩

/-! ### The screen range of the SXY FIFO -/

/-- A value saturated to a range of signed 16-bit values is stored as itself. -/
theorem toInt_ofInt_saturate {lo hi : Int} (hlo : -32768 ≤ lo) (h : lo ≤ hi) (hhi : hi ≤ 32767) (v : Int) :
    (BitVec.ofInt 16 (saturate lo hi v)).toInt = saturate lo hi v := by
  have := saturate_range h v
  rw [BitVec.toInt_ofInt]
  apply Int.bmod_eq_of_le <;> omega

/-- A position component is stored as its value saturated to the screen range (40_arith_core.md R117). -/
theorem toInt_ofInt_screen (v : Int) : (BitVec.ofInt 16 (saturate (-1024) 1023 v)).toInt = saturate (-1024) 1023 v :=
  toInt_ofInt_saturate (by norm_num) (by norm_num) (by norm_num) v

/-- The register-file part of the invariant of 10_state.md R48 (e). -/
def ScreenInRange (r : RegFile) : Prop :=
  inScreenRange r.sxy0 = true ∧ inScreenRange r.sxy1 = true ∧ inScreenRange r.sxy2 = true

theorem screenInv_iff (s : State) : ScreenInv s ↔ ScreenInRange s.regs ∧ s.pending.all keepsScreenSlots = true := by
  simp only [ScreenInv, ScreenInRange, and_assoc]

/-- A saturated position is in the screen range (40_arith_core.md R117). -/
theorem inScreenRange_saturate (x y : Int) :
    inScreenRange { x := BitVec.ofInt 16 (saturate (-1024) 1023 x), y := BitVec.ofInt 16 (saturate (-1024) 1023 y) } = true := by
  have hx := saturate_range (show (-1024 : Int) ≤ 1023 by norm_num) x
  have hy := saturate_range (show (-1024 : Int) ≤ 1023 by norm_num) y
  simp only [inScreenRange, toInt_ofInt_screen, Bool.and_eq_true, decide_eq_true_eq]
  omega

/-- A push shifts two slots that are in range and saturates the third; no other operation writes the FIFO. -/
theorem screenInRange_keptByOperations : KeptByOperations ScreenInRange where
  raise h := h
  setLanes h := by rwa [setLanes_eq]
  setMac0 h := by rwa [setMac0_eq]
  setOtz h := by rwa [setOtz_eq]
  setIr0 h := h
  pushScreenZ h := by rwa [pushScreenZ_eq]
  pushScreenXY := by
    rintro x y r ⟨-, h1, h2⟩
    rw [pushScreenXY_eq]
    exact ⟨h1, h2, inScreenRange_saturate x y⟩
  pushColor h := by rwa [pushColor_eq]

/-- A host write outside indices 12 to 15 reaches no slot of the SXY FIFO (10_state.md R21). -/
theorem regMap_ne_sxy {idx : BitVec 6} {w : Word} (h : keepsScreenSlots (.write idx w) = true) :
    (∀ k, regMap idx ≠ .sxy k) ∧ regMap idx ≠ .sxy3 := by
  have hall : ∀ idx : BitVec 6, idx.toNat < 12 ∨ 15 < idx.toNat → (∀ k, regMap idx ≠ .sxy k) ∧ regMap idx ≠ .sxy3 := by
    decide
  refine hall idx ?_
  simpa [keepsScreenSlots] using h

/-- A write to another register keeps the SXY FIFO (41_register_access.md R155). -/
theorem writeReg_sxy (m : FlagMap) {q : HostReg} (hq : (∀ k, q ≠ .sxy k) ∧ q ≠ .sxy3) (w : Word) (r : RegFile) :
    (writeReg m q w r).sxy0 = r.sxy0 ∧ (writeReg m q w r).sxy1 = r.sxy1 ∧ (writeReg m q w r).sxy2 = r.sxy2 := by
  obtain ⟨hslot, hname⟩ := hq
  cases q with
  | vxy n | vz n => fin_cases n <;> exact ⟨rfl, rfl, rfl⟩
  | sxy k => exact absurd rfl (hslot k)
  | sxy3 => exact absurd rfl hname
  | sz k | rgb k => fin_cases k <;> exact ⟨rfl, rfl, rfl⟩
  | matPair a j | mat33 a => cases a <;> exact ⟨rfl, rfl, rfl⟩
  | trans v i => cases v <;> exact ⟨rfl, rfl, rfl⟩
  | _ => exact ⟨rfl, rfl, rfl⟩

/-- A host write outside indices 12 to 15 keeps the screen range (10_state.md R48 (e)). -/
theorem writeIndex_screenInRange {idx : BitVec 6} {w : Word} (hidx : keepsScreenSlots (.write idx w) = true) {r : RegFile}
    (h : ScreenInRange r) : ScreenInRange (writeIndex idx w r) := by
  obtain ⟨h0, h1, h2⟩ := writeReg_sxy flagMap (regMap_ne_sxy hidx) w r
  rwa [writeIndex_eq, ScreenInRange, h0, h1, h2]

/-- A command that completes clears `FLAG`, then answers that its word is unrecognised, or runs the instruction of its word
(30_encoding.md R83, R88). -/
theorem command_next_cases {cmd : Word} {s t : State} (h : command cmd s = .next t) :
    t = respond (.recognised false) (s.withRegs (clearFlag s.regs)) ∨
      ∃ i u, exec i (s.withRegs (clearFlag s.regs)) = .next u ∧ t = respond (.recognised true) u := by
  rw [command_eq] at h
  unfold dispatch at h
  split at h
  next =>
    cases h
    exact .inl rfl
  next i _ =>
    split at h
    next u hu =>
      cases h
      exact .inr ⟨i, u, hu, rfl⟩
    next => cases h
    next => cases h

/-- A command keeps the screen range and the transactions pending, whatever its word decodes to (10_state.md R48 (e)). -/
theorem command_screenInRange {cmd : Word} {s t : State} (h : command cmd s = .next t) (hs : ScreenInRange s.regs) :
    ScreenInRange t.regs ∧ t.pending = s.pending := by
  have hclear : ScreenInRange (clearFlag s.regs) := by rwa [ScreenInRange, clearFlag_sxy0, clearFlag_sxy1, clearFlag_sxy2]
  obtain rfl | ⟨i, u, hexec, rfl⟩ := command_next_cases h
  · exact ⟨hclear, rfl⟩
  · obtain ⟨-, hpending, -⟩ := instructionsKeepHostRegisters i _ u hexec
    have hu : ScreenInRange u.regs := screenInRange_keptByOperations.exec hexec hclear
    exact ⟨hu, hpending⟩

/-- Settles O31: a read changes no register, a write outside indices 12 to 15 reaches no slot, and a command writes the FIFO
only by pushes, which saturate. -/
theorem screenRangeKeptByEveryStep : Obligations.ScreenRangeKeptByEveryStep := by
  intro s t hs h
  rw [screenInv_iff] at hs ⊢
  obtain ⟨hregs, hpending⟩ := hs
  rw [step_eq] at h
  split at h
  next hnil =>
    cases h
    exact ⟨hregs, hpending⟩
  next x rest hcons =>
    rw [hcons, List.all_cons, Bool.and_eq_true] at hpending
    obtain ⟨hx, hrest⟩ := hpending
    cases x with
    | read idx =>
      cases h
      exact ⟨hregs, hrest⟩
    | write idx w =>
      cases h
      exact ⟨writeIndex_screenInRange hx hregs, hrest⟩
    | command cmd =>
      obtain ⟨hregs', hpending'⟩ := command_screenInRange h hregs
      exact ⟨hregs', hpending' ▸ hrest⟩

/-- Settles O32: every position is `(0, 0)` and no transaction is pending at reset. -/
theorem screenRangeAtReset : Obligations.ScreenRangeAtReset := by
  rw [Obligations.ScreenRangeAtReset, screenInv_iff]
  exact ⟨⟨by decide, by decide, by decide⟩, rfl⟩

end Sys2Proof.Proofs
end

section
/-! Registers no instruction reads: `RES1` (spec/10_state.md R29) and `OTZ` (R24). Another value in them changes nothing of an
instruction's outcome but themselves, and `avsz3` and `avsz4` alone write `OTZ`. -/

namespace Sys2Proof.Proofs

open Sys2Proof Sys2Proof.Machine Sys2Proof.Safety Sys2Proof.Laws

/-- The register file with other values in the two registers that no instruction reads. -/
def setUnread (x : Word) (y : Half) (r : RegFile) : RegFile := { r with res1 := x, otz := y }

/-! ### The operands do not read them -/

section Operands

variable (x : Word) (y : Half) (r : RegFile)

@[simp] theorem setUnread_self : setUnread r.res1 r.otz r = r := rfl
@[simp] theorem vertexVec_setUnread (n : Fin 3) : vertexVec n (setUnread x y r) = vertexVec n r := rfl
@[simp] theorem transVec_setUnread (t : TransName) : transVec t (setUnread x y r) = transVec t r := rfl
@[simp] theorem irVec_setUnread : irVec (setUnread x y r) = irVec r := rfl
@[simp] theorem matrix_setUnread (a : MatrixName) : matrix a (setUnread x y r) = matrix a r := rfl
@[simp] theorem vectorOf_setUnread (vx : VectorSel) : vectorOf vx (setUnread x y r) = vectorOf vx r := rfl
@[simp] theorem transOf_setUnread (tx : TransSel) : transOf tx (setUnread x y r) = transOf tx r := rfl
@[simp] theorem lightTimesColor_setUnread : lightTimesColor (setUnread x y r) = lightTimesColor r := rfl
@[simp] theorem irBase_setUnread : irBase (setUnread x y r) = irBase r := rfl
@[simp] theorem gplSums_setUnread (sf : Bool) : gplSums sf (setUnread x y r) = gplSums sf r := rfl
@[simp] theorem opSums_setUnread : opSums (setUnread x y r) = opSums r := rfl
@[simp] theorem nclipValue_setUnread : nclipValue (setUnread x y r) = nclipValue r := rfl
@[simp] theorem setUnread_rgbc : (setUnread x y r).rgbc = r.rgbc := rfl
@[simp] theorem setUnread_zsf3 : (setUnread x y r).zsf3 = r.zsf3 := rfl
@[simp] theorem setUnread_zsf4 : (setUnread x y r).zsf4 = r.zsf4 := rfl
@[simp] theorem setUnread_sz0 : (setUnread x y r).sz0 = r.sz0 := rfl
@[simp] theorem setUnread_sz1 : (setUnread x y r).sz1 = r.sz1 := rfl
@[simp] theorem setUnread_sz2 : (setUnread x y r).sz2 = r.sz2 := rfl
@[simp] theorem setUnread_sz3 : (setUnread x y r).sz3 = r.sz3 := rfl
@[simp] theorem setUnread_ir0 : (setUnread x y r).ir0 = r.ir0 := rfl
@[simp] theorem setUnread_otz : (setUnread x y r).otz = y := rfl

end Operands

/-! ### The operations and the datapaths pass them through -/

section Operations

variable (sf lm : Bool) (n : Fin 3) (x : Word) (y : Half) (r : RegFile)

@[simp] theorem setLanes_setUnread (v : Vec3 Int) : setLanes sf lm v (setUnread x y r) = setUnread x y (setLanes sf lm v r) := by
  simp [setLanes_eq, setUnread]

@[simp] theorem mvma_setUnread (a : Mat3) (v t : Vec3 Int) :
    mvma sf lm a v t (setUnread x y r) = setUnread x y (mvma sf lm a v t r) := by
  simp [mvma_eq, setUnread]

@[simp] theorem interpolate_setUnread (b : Vec3 Int) :
    interpolate sf lm b (setUnread x y r) = setUnread x y (interpolate sf lm b r) := by
  rw [interpolate_eq, interpolate_eq]
  rfl

@[simp] theorem pushColor_setUnread : pushColor (setUnread x y r) = setUnread x y (pushColor r) := by
  simp [pushColor_eq, setUnread]

@[simp] theorem setMac0_setUnread (v : Int) : setMac0 v (setUnread x y r) = setUnread x y (setMac0 v r) := by
  simp [setMac0_eq, setUnread]

@[simp] theorem nc_setUnread (cue : Bool) :
    nc params sf lm n cue (setUnread x y r) = setUnread x y (nc params sf lm n cue r) := by
  rw [nc_eq, nc_eq]
  rfl

@[simp] theorem dcp_setUnread (k : Color) : dcp sf lm k (setUnread x y r) = setUnread x y (dcp sf lm k r) := by
  simp [dcp]

@[simp] theorem dcpOldest_setUnread : dcpOldest sf lm (setUnread x y r) = setUnread x y (dcpOldest sf lm r) :=
  dcp_setUnread ..

@[simp] theorem rtp_setUnread (last : Bool) :
    rtp params sf lm n last (setUnread x y r) = setUnread x y (rtp params sf lm n last r) := by
  cases last with
  | true =>
    rw [rtp_cue_eq, rtp_cue_eq]
    rfl
  | false =>
    rw [rtp_eq rfl _ _ _ rfl, rtp_eq rfl _ _ _ rfl]
    rfl

@[simp] theorem setOtz_setUnread : setOtz (setUnread x y r) = setUnread x (setOtz r).otz (setOtz r) := by
  simp [setOtz_eq, setUnread]

end Operations

/-! ### The instructions -/

/-- The instructions that write `OTZ` (45_utility.md R206, R207). -/
def writesOtz (i : Instr) : Bool := decide (i ∈ [Instr.avsz3, .avsz4])

/-- Other values before an instruction are the only difference after it, but that `avsz3` and `avsz4` write `OTZ`. -/
theorem effect_setUnread (i : Instr) (x : Word) (y : Half) (r : RegFile) :
    effect i (setUnread x y r) = setUnread x (if writesOtz i then (effect i r).otz else y) (effect i r) := by
  unfold effect
  cases i with
  | mvmva sf lm mx vx tx =>
    cases mx with
    | mat a => simp [writesOtz]
    | reserved => rfl
  | _ => simp [writesOtz]

/-- No instruction writes `RES1` (10_state.md R29). -/
theorem exec_res1 {i : Instr} {s t : State} (h : exec i s = .next t) : t.regs.res1 = s.regs.res1 := by
  obtain ⟨hregs, -, -⟩ := instructionsKeepHostRegisters i s t h
  rw [hregs]

/-- No instruction but `avsz3` and `avsz4` writes `OTZ` (10_state.md R24): an `OTZ` written would not depend on the one before. -/
theorem exec_otz {i : Instr} {s t : State} (h : exec i s = .next t) (hi : writesOtz i = false) : t.regs.otz = s.regs.otz := by
  have heffect := effect_setUnread i s.regs.res1 s.regs.otz s.regs
  rw [setUnread_self, hi] at heffect
  rw [eq_effect_of_exec_next h, withRegs_regs, heffect]
  rfl

/-- An instruction that completes does so whatever the two registers hold, with the same outcome but for them. -/
theorem exec_setUnread {i : Instr} {s t : State} (h : exec i s = .next t) (x : Word) (y : Half) :
    exec i (s.withRegs (setUnread x y s.regs)) =
      .next (t.withRegs (setUnread x (if writesOtz i then t.regs.otz else y) t.regs)) := by
  rw [exec_eq_complete (wellFormed_of_exec_next h), complete_eq, withRegs_withRegs, withRegs_regs, effect_setUnread,
    eq_effect_of_exec_next h, withRegs_withRegs, withRegs_regs]

/-- `RES1` passes through an instruction and changes nothing else (10_state.md R29). -/
theorem exec_setRes1 {i : Instr} {s t : State} (h : exec i s = .next t) (x : Word) :
    exec i (s.withRegs { s.regs with res1 := x }) = .next (t.withRegs { t.regs with res1 := x }) := by
  refine (exec_setUnread h x s.regs.otz).trans ?_
  split
  next => rfl
  next hi => rw [← exec_otz h (by simpa using hi)]; rfl

/-- `OTZ` passes through an instruction, or is overwritten, and changes nothing else (10_state.md R24). -/
theorem exec_setOtz {i : Instr} {s t : State} (h : exec i s = .next t) (y : Half) :
    exec i (s.withRegs { s.regs with otz := y }) =
      .next (t.withRegs { t.regs with otz := if writesOtz i then t.regs.otz else y }) := by
  refine (exec_setUnread h s.regs.res1 y).trans ?_
  rw [← exec_res1 h]
  rfl

/-- A refusal depends on the instruction alone (43_mvmva.md R172). -/
theorem exec_refused {i : Instr} {s : State} {e : Refusal} (h : exec i s = .refused e) (s' : State) : exec i s' = .refused e := by
  cases i with
  | mvmva sf lm mx vx tx =>
    cases mx with
    | mat a =>
      rw [exec_eq_complete rfl, complete_eq] at h
      cases h
    | reserved => exact h
  | _ =>
    rw [exec_eq_complete rfl, complete_eq] at h
    cases h

/-! ### The host's moves -/

/-- A write stores in one of the two registers exactly when it is to that register, and reads neither. -/
theorem writeReg_setUnread (m : FlagMap) (q : HostReg) (w x : Word) (y : Half) (r : RegFile) :
    writeReg m q w (setUnread x y r) =
      setUnread (if q = .res1 then w else x) (if q = .otz then lowHalf w else y) (writeReg m q w r) := by
  cases q with
  | vxy n | vz n => fin_cases n <;> rfl
  | sxy k | sz k | rgb k => fin_cases k <;> rfl
  | matPair a j | mat33 a => cases a <;> rfl
  | trans v i => cases v <;> rfl
  | _ => rfl

/-- A write to another register keeps `OTZ` (41_register_access.md R155). -/
theorem writeReg_otz (m : FlagMap) {q : HostReg} (hq : q ≠ .otz) (w : Word) (r : RegFile) : (writeReg m q w r).otz = r.otz := by
  have h := writeReg_setUnread m q w r.res1 r.otz r
  rw [setUnread_self, if_neg hq] at h
  rw [h, setUnread_otz]

/-- A write to another register keeps `RES1` (41_register_access.md R155). -/
theorem writeReg_res1 (m : FlagMap) {q : HostReg} (hq : q ≠ .res1) (w : Word) (r : RegFile) :
    (writeReg m q w r).res1 = r.res1 := by
  have h := writeReg_setUnread m q w r.res1 r.otz r
  rw [setUnread_self, if_neg hq] at h
  rw [h]
  rfl

/-- A read of another register does not depend on `RES1` (41_register_access.md R130). -/
theorem readReg_setRes1 (m : FlagMap) {q : HostReg} (hq : q ≠ .res1) (x : Word) (r : RegFile) :
    readReg m q { r with res1 := x } = readReg m q r := by
  cases q with
  | res1 => exact absurd rfl hq
  | _ => rfl

/-- A write to another register does not depend on `RES1` (41_register_access.md R155). -/
theorem writeReg_setRes1 (m : FlagMap) {q : HostReg} (hq : q ≠ .res1) (w x : Word) (r : RegFile) :
    writeReg m q w { r with res1 := x } = { writeReg m q w r with res1 := x } := by
  have h := writeReg_setUnread m q w x r.otz r
  rw [if_neg hq] at h
  refine h.trans ?_
  split
  next hotz => rw [hotz]; rfl
  next hotz => rw [← writeReg_otz m hotz w r]; rfl

/-- Settles O58: no operation reads or writes `RES1`; a host's move reaches it only at its own index. -/
theorem res1HasNoHardwareEffect : Obligations.Res1HasNoHardwareEffect := by
  refine ⟨fun i s t x h => ⟨exec_res1 h, exec_setRes1 h x⟩, fun i s e x h => exec_refused h _, fun c idx w r hidx => ?_,
    fun c idx w x r hidx =>
      ⟨writeReg_res1 c.flagMap hidx w r, writeReg_setRes1 c.flagMap hidx w x r, readReg_setRes1 c.flagMap hidx x r⟩⟩
  rw [writeIndexWith, readIndexWith, hidx]
  exact ⟨rfl, rfl⟩

/-- The low half of a word made of a half is that half. -/
theorem lowHalf_setWidth (y : Half) : lowHalf (y.setWidth 32) = y := by
  refine BitVec.eq_of_getLsbD_eq fun k hk => ?_
  simp [lowHalf, hk]
  omega

/-- Settles O59: `OTZ` is read by no operation and written by `setOtz` alone; a host's write reaches it only at its own index. -/
theorem otzWrittenByAverageZAndHostOnly : Obligations.OtzWrittenByAverageZAndHostOnly := by
  refine ⟨fun i s t x h => ?_, fun i s e x h => exec_refused h _, fun i s hi => ?_, fun c idx r hidx => ?_,
    fun c idx w r hidx => writeReg_otz c.flagMap hidx w r⟩
  · have hexec := exec_setOtz h x
    split
    next hi =>
      have hwrites : writesOtz i = true := decide_eq_true hi
      rw [hwrites] at hexec
      exact hexec
    next hi =>
      have hwrites : writesOtz i = false := decide_eq_false hi
      rw [hwrites] at hexec
      exact ⟨exec_otz h hwrites, hexec⟩
  · simp only [List.mem_cons, List.not_mem_nil, or_false] at hi
    obtain rfl | rfl := hi <;> exact ⟨setMac0 _ s.regs, rfl, rfl⟩
  · have hwrite : ∀ w, writeIndexWith c idx w r = { r with otz := lowHalf w } := fun w => by rw [writeIndexWith, hidx]; rfl
    exact ⟨fun w => ⟨_, hwrite w⟩, fun y => ⟨y.setWidth 32, by rw [hwrite, lowHalf_setWidth]⟩⟩

end Sys2Proof.Proofs
end

section
/-! Ranges of the stored results: `IR1..3` after an instruction with `lm` set, and the FIFOs after a full turn of pushes
(spec/10_state.md R48 (a), (b)). -/

namespace Sys2Proof.Proofs

open Sys2Proof Sys2Proof.Machine Sys2Proof.Safety Sys2Proof.Laws

/-! ### `IR1..3` after an instruction with an `lm` bit -/

/-- `IR1..3` are the clamps, under `lm`, of some stored `MAC1..3` (40_arith_core.md R109). -/
def IrClamped (lm : Bool) (r : RegFile) : Prop := ∃ m : Vec3 Word, r.ir = irsOf lm m

section Clamps

variable (sf lm : Bool) (n : Fin 3) (r : RegFile)

theorem setLanes_irClamped (v : Vec3 Int) : IrClamped lm (setLanes sf lm v r) := ⟨_, by rw [setLanes_eq]⟩

theorem mvma_irClamped (a : Mat3) (v t : Vec3 Int) : IrClamped lm (mvma sf lm a v t r) := setLanes_irClamped ..

theorem pushColor_setLanes_irClamped (v : Vec3 Int) : IrClamped lm (pushColor (setLanes sf lm v r)) :=
  ⟨_, by rw [pushColor_setLanes_eq]⟩

theorem pushColor_interpolate_irClamped (b : Vec3 Int) : IrClamped lm (pushColor (interpolate sf lm b r)) :=
  ⟨_, by rw [pushColor_interpolate_eq]⟩

theorem nc_irClamped (cue : Bool) : IrClamped lm (nc params sf lm n cue r) := ⟨_, by rw [nc_eq]⟩

/-- The depth cue after the lanes leaves `IR1..3` alone (42_projection.md R161). -/
theorem rtp_irClamped : IrClamped lm (rtp params sf lm n true r) := ⟨projMac sf r n, by rw [rtp_cue_eq]; rfl⟩

end Clamps

/-- Every instruction with an `lm` bit ends its lanes with it (30_encoding.md R84). -/
theorem effect_irClamped {i : Instr} {lm : Bool} (hi : i.wellFormed = true) (hlm : lmOf i = some lm) (r : RegFile) :
    IrClamped lm (effect i r) := by
  unfold effect
  cases i with
  | nclip | avsz3 | avsz4 => cases hlm
  | rtps sf _ | rtpt sf _ => cases hlm; exact rtp_irClamped ..
  | op sf _ | sqr sf _ => cases hlm; exact setLanes_irClamped ..
  | mvmva sf _ mx vx tx =>
    cases mx with
    | mat a => cases hlm; exact mvma_irClamped ..
    | reserved => cases hi
  | ncds sf _ | ncdt sf _ | nccs sf _ | ncct sf _ => cases hlm; exact nc_irClamped ..
  | dcps sf _ | dcpt sf _ | dcpl sf _ | intpl sf _ => cases hlm; exact pushColor_interpolate_irClamped ..
  | gpf sf _ | gpl sf _ => cases hlm; exact pushColor_setLanes_irClamped ..

/-- With `lm` set the clamp leaves `[0, 0x7fff]` (40_arith_core.md R109). -/
theorem irOf_lm_range (m : Word) : 0 ≤ (irOf true m).toInt ∧ (irOf true m).toInt ≤ 0x7fff := by
  rw [irOf, irLow, if_pos rfl, toInt_ofInt_saturate (by norm_num) (by norm_num) (by norm_num)]
  exact saturate_range (by norm_num) _

/-- Settles O30: an instruction with an `lm` bit leaves clamps under `lm` in `IR1..3`. -/
theorem lmKeepsIrNonNegative : Obligations.LmKeepsIrNonNegative := by
  intro i s t hlm h j
  obtain ⟨m, hm⟩ := effect_irClamped (wellFormed_of_exec_next h) hlm s.regs
  rw [eq_effect_of_exec_next h, withRegs_regs, hm]
  cases j <;> exact irOf_lm_range _

/-! ### The FIFOs -/

/-- A value saturated to 16 unsigned bits is stored as itself. -/
theorem toNat_ofInt_saturate (v : Int) :
    ((BitVec.ofInt 16 (saturate 0 65535 v)).toNat : Int) = saturate 0 65535 v := by
  have := saturate_range (show (0 : Int) ≤ 65535 by norm_num) v
  rw [BitVec.toNat_ofInt]
  omega

/-- Settles O34: each push stores a saturated value in the newest slot and shifts the others. -/
theorem fifosHoldMostRecentPushes : Obligations.FifosHoldMostRecentPushes := by
  refine ⟨fun a b c d r => ?_, fun a b c r => ?_, fun a b c r => ?_⟩
  · simp only [pushScreenZ_eq, toNat_ofInt_saturate]
  · simp only [pushScreenXY_eq, toInt_ofInt_screen, and_self]
  · simp only [pushColor_eq]

end Sys2Proof.Proofs
end

section
/-! The word of `FLAG` (spec/10_state.md R43 to R46), the conditions stored before a command (R47), and the bits of a written
word each register takes (spec/41_register_access.md R131 to R156). -/

namespace Sys2Proof.Proofs

open Sys2Proof Sys2Proof.Machine Sys2Proof.Safety Sys2Proof.Laws

/-! ### The word of `FLAG` -/

/-- The error subset is two runs of bits, 30..23 and 18..13 (10_state.md R46). -/
theorem and_errorMask_ne_zero (w : Word) :
    decide (w &&& errorMask ≠ 0#32) = (decide (w &&& 0x7F800000#32 ≠ 0#32) || decide (w &&& 0x0007E000#32 ≠ 0#32)) := by
  have hmask : errorMask = 0x7F800000#32 ||| 0x0007E000#32 := rfl
  rw [hmask, BitVec.and_or_distrib_left, ← Bool.decide_or, decide_eq_decide, ne_eq, BitVec.or_eq_zero_iff, not_and_or]

/-- A word shifted left by 12 or more has bits 11..0 clear. -/
theorem shiftLeft_and_lowMask (x : Word) {n : Nat} (hn : 12 ≤ n) : x <<< n &&& 0xFFF#32 = 0#32 := by
  have hmask : ∀ k < 32, (0xFFF#32).getLsbD k = decide (k < 12) := by decide
  refine BitVec.eq_of_getLsbD_eq fun k hk => ?_
  rw [BitVec.getLsbD_and, BitVec.getLsbD_shiftLeft, hmask k hk]
  by_cases h : k < 12
  · simp [show k < n by omega]
  · simp [h]

/-- Bits 11..0 of the word of `FLAG` are clear (10_state.md R43). -/
theorem flagWord_and_lowMask (flag : BitVec 19) : flagWord flag &&& 0xFFF#32 = 0#32 := by
  rw [flagWord_eq, BitVec.and_or_distrib_right, shiftLeft_and_lowMask _ (by norm_num), shiftLeft_and_lowMask _ le_rfl,
    BitVec.or_self]

/-- Settles O21: the default FLAGMAP is legal, and its conditions stand at bits 30..12 of the word. -/
theorem flagWordErrorBit : Obligations.FlagWordErrorBit := by
  intro r
  have herror := flagWordWith_bit31 legalFlagMap_flagMap r.flag
  have hload : loadFlags (flagWord r.flag) = r.flag := loadFlagsWith_flagWordWith legalFlagMap_flagMap r.flag
  refine ⟨herror.trans (and_errorMask_ne_zero _), flagWord_and_lowMask r.flag, ?_⟩
  rw [BitVec.setWidth_ushiftRight_eq_extractLsb, ← loadFlags_eq]
  exact hload

/-- A condition is stored exactly when its mask is within the stored word. -/
theorem flagAt_eq_decide_mask (f : FlagName) (fl : BitVec 19) : flagAt fl f = decide (flagMask f &&& fl = flagMask f) := by
  have hmask : flagMask f = BitVec.twoPow 19 (storedBit f) := rfl
  have hne : 0#19 ≠ flagMask f := by
    intro h
    have hbit := flagAt_flagMask f f
    rw [← h, flagAt_zero, decide_eq_true rfl] at hbit
    cases hbit
  rw [hmask] at hne ⊢
  rw [BitVec.twoPow_and, flagAt]
  by_cases hbit : fl.getLsbD (storedBit f) = true
  · rw [if_pos hbit, decide_eq_true rfl, hbit]
  · rw [if_neg hbit, decide_eq_false hne, Bool.eq_false_iff.mpr hbit]

/-- Settles O22: the word of each single condition evaluates to its row, and a stored condition is its mask's bit. -/
theorem flagMapWords : Obligations.FlagMapWords := by
  refine ⟨fun f => ?_, flagAt_eq_decide_mask⟩
  rw [flagWord_eq]
  rcases f with ⟨_ | _ | _⟩ | ⟨_ | _ | _⟩ | ⟨_ | _ | _⟩ | ⟨_ | _ | _⟩ | _ | _ | _ | _ | _ | _ | _ <;> rfl

/-! ### The conditions stored before a command -/

/-- Settles O24: a command clears `FLAG` first, whatever is stored there. -/
theorem staleFlagsNeverLeak : Obligations.StaleFlagsNeverLeak := by
  intro cmd s fl
  have hclear : clearFlag { s.regs with flag := fl } = clearFlag s.regs := rfl
  rw [command_eq, command_eq, withRegs_withRegs, withRegs_regs, hclear]

/-! ### The host's writes -/

/-- The low half is a truncation. -/
theorem lowHalf_eq (w : Word) : lowHalf w = w.setWidth 16 := by
  rw [lowHalf, ← BitVec.setWidth_ushiftRight_eq_extractLsb, BitVec.ushiftRight_zero]

/-- The high half is a shift and a truncation. -/
theorem highHalf_eq (w : Word) : highHalf w = (w >>> 16).setWidth 16 := BitVec.setWidth_ushiftRight_eq_extractLsb.symm

/-- The bytes of a colour are shifts and truncations (41_register_access.md R133). -/
theorem unpackColor_eq (w : Word) : unpackColor w =
    { r := w.setWidth 8, g := (w >>> 8).setWidth 8, b := (w >>> 16).setWidth 8, code := (w >>> 24).setWidth 8 } := by
  simp only [unpackColor, ← BitVec.setWidth_ushiftRight_eq_extractLsb, BitVec.ushiftRight_zero]

/-- The conditions a write of `FLAG` stores are a shift and a truncation (41_register_access.md R156). -/
theorem loadFlagsWith_flagMap (w : Word) : loadFlagsWith flagMap w = (w >>> 12).setWidth 19 := by
  rw [BitVec.setWidth_ushiftRight_eq_extractLsb, ← loadFlags_eq, loadFlags]

/-- Settles O12: with the fields of the word named as the model names them, REGMAP gives the register of each index. -/
theorem writeLoadsFieldsOfIndex : Obligations.WriteLoadsFieldsOfIndex := by
  intro w r lo hi c
  have hlo : lo = lowHalf w := (lowHalf_eq w).symm
  have hhi : hi = highHalf w := (highHalf_eq w).symm
  have hc : c = unpackColor w := (unpackColor_eq w).symm
  clear_value lo hi c
  rw [hlo, hhi, hc, ← loadFlagsWith_flagMap]
  and_intros <;> rfl

end Sys2Proof.Proofs
end

section
/-! The host's script and its moves (spec/20_memory.md R66, R69): accepted transactions are taken one a step without a stop; a
`WRITE` changes what a `READ` returns only at the names and views of what it stores, and is idempotent. -/

namespace Sys2Proof.Proofs

open Sys2Proof Sys2Proof.Machine Sys2Proof.Safety Sys2Proof.Laws

/-! ### A run in two parts -/

/-- A step that answers a next state begins a run. -/
theorem run_succ_of_step {M : Host.Core} {s u : M.State} (h : M.step s = .next u) (k : Nat) : M.run (k + 1) s = M.run k u := by
  rw [Host.Core.run, h]

/-- What follows `k` steps is the run from the state they left. -/
theorem run_add_of_run {M : Host.Core} {k : Nat} {s t : M.State} (h : M.run k s = .next t) (j : Nat) :
    M.run (k + j) s = M.run j t := by
  induction k generalizing s with
  | zero =>
    cases h
    rw [Nat.zero_add]
  | succ k ih =>
    cases hstep : M.step s with
    | next u =>
      rw [run_succ_of_step hstep] at h
      rw [Nat.succ_add, run_succ_of_step hstep, ih h]
    | fault e =>
      rw [Host.Core.run, hstep] at h
      cases h
    | refused e =>
      rw [Host.Core.run, hstep] at h
      cases h

/-! ### Accepted transactions complete -/

/-- An accepted command completes and leaves the transactions pending (60_exceptions.md R220, R224). -/
theorem command_next_of_accepted {cmd : Word} (h : accepted (.command cmd) = true) (s : State) :
    ∃ t, command cmd s = .next t ∧ t.pending = s.pending := by
  rw [command_eq]
  rw [accepted] at h
  cases hdecode : decode cmd with
  | error e => exact ⟨_, rfl, rfl⟩
  | ok i =>
    rw [hdecode] at h
    rw [dispatch, exec_eq_complete h, complete_eq]
    exact ⟨_, rfl, rfl⟩

/-- An accepted transaction completes and issues none (20_memory.md R69). -/
theorem perform_next_of_accepted {x : Transaction} (h : accepted x = true) (s : State) :
    ∃ t, perform x s = .next t ∧ t.pending = s.pending := by
  cases x with
  | read idx | write idx w => exact ⟨_, rfl, rfl⟩
  | command cmd => exact command_next_of_accepted h s

/-- With every pending transaction accepted a step takes the oldest, or is idle when there is none (20_memory.md R69). -/
theorem step_next_of_scriptAccepted {s : State} (h : scriptAccepted s = true) :
    ∃ t, step s = .next t ∧ t.pending = s.pending.drop 1 := by
  rw [step_eq]
  rw [scriptAccepted] at h
  cases hpending : s.pending with
  | nil => exact ⟨s, rfl, hpending⟩
  | cons x rest =>
    rw [hpending, List.all_cons, Bool.and_eq_true] at h
    obtain ⟨hx, -⟩ := h
    exact perform_next_of_accepted hx _

/-- What is left of an accepted script is accepted. -/
theorem scriptAccepted_of_drop {s t : State} {k : Nat} (h : scriptAccepted s = true) (ht : t.pending = s.pending.drop k) :
    scriptAccepted t = true := by
  rw [scriptAccepted, List.all_eq_true] at h ⊢
  rw [ht]
  exact fun x hx => h x (List.mem_of_mem_drop hx)

/-- `k` steps take the first `k` transactions of an accepted script (20_memory.md R69). -/
theorem run_next_of_scriptAccepted (k : Nat) {s : State} (h : scriptAccepted s = true) :
    ∃ t : State, Host.Core.run Sys2Proof.core k s = .next t ∧ t.pending = s.pending.drop k := by
  induction k generalizing s with
  | zero => exact ⟨s, rfl, rfl⟩
  | succ k ih =>
    obtain ⟨u, hstep, hu⟩ := step_next_of_scriptAccepted h
    obtain ⟨t, hrun, ht⟩ := ih (scriptAccepted_of_drop h hu)
    refine ⟨t, (run_succ_of_step (M := Sys2Proof.core) hstep k).trans hrun, ?_⟩
    rw [ht, hu, List.drop_drop, Nat.add_comm]

/-- Settles O8: an accepted transaction completes and leaves the rest of the script pending, so by induction on the number of
steps the script runs in order; what follows is the run from the state left. -/
theorem acceptedScriptRunsInOrder : Obligations.AcceptedScriptRunsInOrder := by
  intro k s h
  obtain ⟨t, hrun, ht⟩ := run_next_of_scriptAccepted k h
  exact ⟨t, hrun, ht, scriptAccepted_of_drop h ht, run_add_of_run hrun⟩

/-! ### What a replaced slot leaves of the others -/

section Slots

variable (r : RegFile)

@[simp] theorem vec3_get_set {α : Type} (v : Vec3 α) (i k : Lane) (a : α) : (v.set i a).get k = if k = i then a else v.get k := by
  cases i <;> cases k <;> rfl

@[simp] theorem vertex_setVertex (n k : Fin 3) (v : Vec3 Half) : vertex k (setVertex n v r) = if k = n then v else vertex k r := by
  fin_cases n <;> fin_cases k <;> rfl

@[simp] theorem matrix_setMatrix (a b : MatrixName) (x : Mat3) : matrix b (setMatrix a x r) = if b = a then x else matrix b r := by
  cases a <;> cases b <;> rfl

@[simp] theorem matrixPair_setMatrixPair (x : Mat3) (j k : Fin 4) (lo hi : Half) :
    matrixPair (setMatrixPair x j lo hi) k = if k = j then (lo, hi) else matrixPair x k := by
  fin_cases j <;> fin_cases k <;> rfl

/-- The last element is in no pair (41_register_access.md R147). -/
@[simp] theorem setMatrixPair_row3_z (x : Mat3) (j : Fin 4) (lo hi : Half) : (setMatrixPair x j lo hi).row3.z = x.row3.z := by
  fin_cases j <;> rfl

/-- No pair holds the last element (41_register_access.md R147). -/
@[simp] theorem matrixPair_setLast (x : Mat3) (k : Fin 4) (e : Half) :
    matrixPair { x with row3 := { x.row3 with z := e } } k = matrixPair x k := by
  fin_cases k <;> rfl

@[simp] theorem translation_setTrans (t u : TransName) (v : Vec3 Word) :
    translation u (setTrans t v r) = if u = t then v else translation u r := by
  cases t <;> cases u <;> rfl

@[simp] theorem sxy_setSxy (n k : Fin 3) (p : ScreenXY) : sxy k (setSxy n p r) = if k = n then p else sxy k r := by
  fin_cases n <;> fin_cases k <;> rfl

@[simp] theorem sz_setSz (n k : Fin 4) (z : Half) : sz k (setSz n z r) = if k = n then z else sz k r := by
  fin_cases n <;> fin_cases k <;> rfl

@[simp] theorem rgb_setRgb (n k : Fin 3) (c : Color) : rgb k (setRgb n c r) = if k = n then c else rgb k r := by
  fin_cases n <;> fin_cases k <;> rfl

end Slots

/-! ### A write and a read of registers -/

/-- The registers whose read a write to a register may change: itself, and the views and second names of what it stores
(20_memory.md R66). -/
def readers : HostReg → List HostReg
  | .ir i => [.ir i, .irgb, .orgb]
  | .irgb => [.irgb, .orgb, .ir .one, .ir .two, .ir .three]
  | .sxy k => .sxy k :: if k = 2 then [.sxy3] else []
  | .sxy3 => [.sxy3, .sxy 2]
  | .lzcs => [.lzcs, .lzcr]
  | .orgb | .lzcr => []
  | p => [p]

/-- Through the index map the readers of a register are those of its index (10_state.md R21). -/
theorem regMap_notMem_readers :
    ∀ idx j : BitVec 6, j.toNat ∉ readersOf idx.toNat → regMap j ∉ readers (regMap idx) := by
  decide

/-- A read of a register outside the readers of the one written returns what it returned before: the two stand for different
fields, or for different slots or elements of one family (20_memory.md R66, 41_register_access.md R155). -/
theorem readReg_writeReg_of_notMem_readers (m : FlagMap) {p q : HostReg} (h : q ∉ readers p) (w : Word) (r : RegFile) :
    readReg m q (writeReg m p w r) = readReg m q r := by
  cases p with
  | vxy n =>
    cases q with
    | vxy k => simp_all [readers, readReg, writeReg]
    | vz k => by_cases hk : k = n <;> simp [readReg, writeReg, hk]
    | _ => fin_cases n <;> rfl
  | vz n =>
    cases q with
    | vz k => simp_all [readers, readReg, writeReg]
    | vxy k => by_cases hk : k = n <;> simp [readReg, writeReg, hk]
    | _ => fin_cases n <;> rfl
  | ir i =>
    cases q with
    | ir k => simp_all [readers, readReg, writeReg]
    | irgb | orgb => simp [readers] at h
    | _ => rfl
  | irgb =>
    cases q with
    | ir k => cases k <;> simp [readers] at h
    | irgb | orgb => simp [readers] at h
    | _ => rfl
  | sxy n =>
    cases q with
    | sxy k => simp_all [readers, readReg, writeReg]
    | sxy3 => fin_cases n <;> simp_all [readers, readReg, writeReg, setSxy]
    | _ => fin_cases n <;> rfl
  | sxy3 =>
    cases q with
    | sxy k => simp_all [readers, readReg, writeReg]
    | sxy3 => simp [readers] at h
    | _ => rfl
  | sz n =>
    cases q with
    | sz k => simp_all [readers, readReg, writeReg]
    | _ => fin_cases n <;> rfl
  | rgb n =>
    cases q with
    | rgb k => simp_all [readers, readReg, writeReg]
    | _ => fin_cases n <;> rfl
  | mac i =>
    cases q with
    | mac k => simp_all [readers, readReg, writeReg]
    | _ => rfl
  | matPair a j =>
    cases q with
    | matPair b k => by_cases hb : b = a <;> simp_all [readers, readReg, writeReg]
    | mat33 b => by_cases hb : b = a <;> simp [readReg, writeReg, hb]
    | _ => cases a <;> rfl
  | mat33 a =>
    cases q with
    | mat33 b => simp_all [readers, readReg, writeReg]
    | matPair b k => by_cases hb : b = a <;> simp [readReg, writeReg, hb]
    | _ => cases a <;> rfl
  | trans t i =>
    cases q with
    | trans u k => by_cases hu : u = t <;> simp_all [readers, readReg, writeReg]
    | _ => cases t <;> rfl
  | lzcs =>
    cases q with
    | lzcs | lzcr => simp [readers] at h
    | _ => rfl
  | orgb | lzcr => rfl
  | rgbc | otz | ir0 | res1 | mac0 | ofx | ofy | h | dqa | dqb | zsf3 | zsf4 | flag =>
    -- the register itself contradicts `hne`; every other one reads another field
    have hne := List.ne_of_not_mem_cons h
    cases q <;> trivial

/-- Settles O14: the readers of a register are those of its index, and no other read sees the write. -/
theorem writeChangesOnlyItsReaders : Obligations.WriteChangesOnlyItsReaders := by
  intro idx j w r h
  exact readReg_writeReg_of_notMem_readers flagMap (regMap_notMem_readers idx j h) w r

/-- A second write of the same word to a register stores what is there (20_memory.md R66). -/
theorem writeReg_writeReg (m : FlagMap) (p : HostReg) (w : Word) (r : RegFile) :
    writeReg m p w (writeReg m p w r) = writeReg m p w r := by
  cases p with
  | vxy n | vz n | sxy n | sz n | rgb n => fin_cases n <;> rfl
  | ir i | mac i => cases i <;> rfl
  | matPair a j => cases a <;> fin_cases j <;> rfl
  | mat33 a => cases a <;> rfl
  | trans t i => cases t <;> cases i <;> rfl
  | _ => rfl

/-- Settles O15: whatever register REGMAP gives for the index, the second write stores what is there. -/
theorem writeIsIdempotent : Obligations.WriteIsIdempotent :=
  fun idx w r => writeReg_writeReg flagMap (regMap idx) w r

end Sys2Proof.Proofs
end

section
/-! The command word under the default encoding (spec/30_encoding.md): the decoder inverts the encoder, what each opcode value
decodes to, which bits the decoder reads, and the step that takes a `COMMAND` (R83, R88). -/

namespace Sys2Proof.Proofs

open Sys2Proof Sys2Proof.Machine Sys2Proof.Safety Sys2Proof.Laws

/-! ### The decoder inverts the encoder -/

@[simp] theorem decode_encode (i : Instr) : decode (encode i) = .ok i := decodeWith_encodeWith legalEncoding_encoding i

/-- Settles O1: the default encoding is legal, and under a legal encoding the decoder inverts the encoder. -/
theorem encodeDecodeRoundTrip : Obligations.EncodeDecodeRoundTrip := decode_encode

/-! ### What each opcode value decodes to -/

/-- The opcode is bits 5:0 (30_encoding.md R81). -/
theorem fieldsOf_opcode_toNat (w : Word) : (fieldsOf w).opcode.toNat = w.toNat % 64 := BitVec.extractLsb'_toNat 0 6 w

/-- A word that carries the number of an instruction's name decodes to that instruction of its fields (30_encoding.md R86). -/
theorem decode_of_opcode (o : Operation) {w : Word} (h : w.toNat % 64 = (opcodeOf o).toNat) :
    decode w = .ok (o.instr (fieldsOf w)) := by
  obtain ⟨-, hinj : ∀ o o', opcodeOf o = opcodeOf o' → o = o'⟩ := legalEncoding_encoding
  have hop : (fieldsOf w).opcode = opcodeOf o := BitVec.eq_of_toNat_eq ((fieldsOf_opcode_toNat w).trans h)
  rw [decode_eq, hop, operationWith_of_eq hinj]

/-- The table lists the number of every instruction's name (30_encoding.md R86). -/
theorem opcodeOf_mem_opcodeValues (o : Operation) : (opcodeOf o).toNat ∈ opcodeValues := by cases o <;> decide

/-- A word whose opcode the table does not list is unrecognised (30_encoding.md R88). -/
theorem decode_of_notMem_opcodeValues {w : Word} (h : w.toNat % 64 ∉ opcodeValues) :
    decode w = .error (.unrecognised (w.setWidth 6)) := by
  have hne : ∀ o, opcodeOf o ≠ (fieldsOf w).opcode := by
    intro o ho
    have hmem := opcodeOf_mem_opcodeValues o
    rw [ho, fieldsOf_opcode_toNat] at hmem
    exact h hmem
  rw [BitVec.setWidth_eq_extractLsb' (by decide)]
  exact decodeWith_unrecognised hne

/-- The matrix selector in the listing order (30_encoding.md R85). -/
theorem matrixSel_eq_ite (b : BitVec 2) : matrixSel b =
    if b.toNat = 0 then .mat .rt else if b.toNat = 1 then .mat .l else if b.toNat = 2 then .mat .lr else .reserved := by
  revert b
  decide

/-- The vector selector in the listing order (30_encoding.md R85). -/
theorem vectorSel_eq_ite (b : BitVec 2) : vectorSel b =
    if b.toNat = 0 then .vertex 0 else if b.toNat = 1 then .vertex 1 else if b.toNat = 2 then .vertex 2 else .ir := by
  revert b
  decide

/-- The translation selector in the listing order (30_encoding.md R85). -/
theorem transSel_eq_ite (b : BitVec 2) : transSel b =
    if b.toNat = 0 then .vec .tr else if b.toNat = 1 then .vec .bk else if b.toNat = 2 then .vec .fc else .zero := by
  revert b
  decide

/-- A two-bit field, as a number (30_encoding.md R82). -/
theorem extractLsb'_two_toNat (w : Word) (p : Nat) : (w.extractLsb' p 2).toNat = w.toNat / 2 ^ p % 4 := by
  rw [BitVec.extractLsb'_toNat, Nat.shiftRight_eq_div_pow]

/-- The word of an `mvmva`, with the selectors of bits 18:17, 16:15 and 14:13 in the listing order (30_encoding.md R81, R85). -/
theorem decode_mvmva {w : Word} (h : w.toNat % 64 = 0x12) :
    let mx := w.toNat / 2 ^ 17 % 4
    let vx := w.toNat / 2 ^ 15 % 4
    let tx := w.toNat / 2 ^ 13 % 4
    decode w = .ok (.mvmva (w.getLsbD 19) (w.getLsbD 10)
      (if mx = 0 then .mat .rt else if mx = 1 then .mat .l else if mx = 2 then .mat .lr else .reserved)
      (if vx = 0 then .vertex 0 else if vx = 1 then .vertex 1 else if vx = 2 then .vertex 2 else .ir)
      (if tx = 0 then .vec .tr else if tx = 1 then .vec .bk else if tx = 2 then .vec .fc else .zero)) := by
  intro mx vx tx
  have hmx : (fieldsOf w).mx.toNat = mx := extractLsb'_two_toNat w 17
  have hvx : (fieldsOf w).vx.toNat = vx := extractLsb'_two_toNat w 15
  have htx : (fieldsOf w).tx.toNat = tx := extractLsb'_two_toNat w 13
  rw [decode_of_opcode .mvmva h, Operation.instr, matrixSel_eq_ite, vectorSel_eq_ite, transSel_eq_ite, hmx, hvx, htx]
  rfl

/-- Settles O4: a listed number gives its instruction of the word's fields, for `mvmva` with the selectors read in the listing
order; any other number is unrecognised. -/
theorem opcodeTableDecodes : Obligations.OpcodeTableDecodes := fun _ =>
  ⟨decode_of_opcode .rtps, decode_of_opcode .nclip, decode_of_opcode .op, decode_of_opcode .dcps, decode_of_opcode .intpl,
    decode_mvmva, decode_of_opcode .ncds, decode_of_opcode .ncdt, decode_of_opcode .nccs, decode_of_opcode .sqr,
    decode_of_opcode .dcpl, decode_of_opcode .dcpt, decode_of_opcode .avsz3, decode_of_opcode .avsz4, decode_of_opcode .rtpt,
    decode_of_opcode .gpf, decode_of_opcode .gpl, decode_of_opcode .ncct, decode_of_notMem_opcodeValues⟩

/-- Settles O3: the encoder gives the seven words by evaluation, so the round trip decodes them; the other two words decode by
their opcode. -/
theorem workedEncodingsDecode : Obligations.WorkedEncodingsDecode :=
  ⟨rfl, rfl, rfl, rfl, rfl, rfl, rfl, decode_encode (.rtps true false), decode_encode (.rtpt true false),
    decode_encode .nclip, decode_encode (.sqr true false), decode_encode (.mvmva true false (.mat .l) .ir (.vec .bk)),
    decode_encode (.ncds true true), decode_encode .avsz3, decode_of_opcode .rtps rfl,
    decode_of_notMem_opcodeValues (by decide)⟩

/-! ### The bits the decoder reads -/

section Agreement

variable {w w' m : Word} (h : w &&& m = w' &&& m)

include h

/-- Words that agree under a mask agree in each bit of it. -/
theorem getLsbD_eq_of_and_eq {k : Nat} (hk : m.getLsbD k = true) : w.getLsbD k = w'.getLsbD k := by
  simpa [hk] using congrArg (BitVec.getLsbD · k) h

/-- Words that agree under a mask agree in each field the mask covers. -/
theorem extractLsb'_eq_of_and_eq {p n : Nat} (hm : m.extractLsb' p n = BitVec.allOnes n) :
    w.extractLsb' p n = w'.extractLsb' p n := by
  simpa [BitVec.extractLsb'_and, hm] using congrArg (BitVec.extractLsb' p n) h

end Agreement

/-- Words that agree in bits 19:13, 10 and 5:0 have the same fields (30_encoding.md R81, R87). -/
theorem fieldsOf_eq_of_and_eq {w w' : Word} (h : w &&& 0x000FE43F = w' &&& 0x000FE43F) : fieldsOf w = fieldsOf w' := by
  simp only [fieldsOf, fieldsOfWith, cmdFields, CmdFields.mk.injEq]
  exact ⟨extractLsb'_eq_of_and_eq h rfl, getLsbD_eq_of_and_eq h rfl, getLsbD_eq_of_and_eq h rfl,
    extractLsb'_eq_of_and_eq h rfl, extractLsb'_eq_of_and_eq h rfl, extractLsb'_eq_of_and_eq h rfl⟩

/-- Only `mvmva` reads the selectors (30_encoding.md R84, R85). -/
theorem instr_eq_of_modifiers {o : Operation} (ho : o ≠ .mvmva) {f g : CmdFields} (hsf : f.sf = g.sf) (hlm : f.lm = g.lm) :
    o.instr f = o.instr g := by
  cases o with
  | mvmva => exact absurd rfl ho
  | _ => simp only [Operation.instr, hsf, hlm]

/-- The name an opcode value gives has that number. -/
theorem opcode_of_operationWith {opcodes : Operation → BitVec 6} {b : BitVec 6} {o : Operation}
    (h : operationWith opcodes b = some o) : opcodes o = b :=
  beq_iff_eq.mp (List.find?_some (p := fun o => opcodes o == b) h)

/-- A word with the opcode of `mvmva` has 12 (hex) in bits 5:0 (30_encoding.md R86). -/
theorem and_opcodeMask_eq_of_opcode {w : Word} (h : opcodeOf .mvmva = (fieldsOf w).opcode) : w &&& 0x3F = 0x12 := by
  have hop : w.toNat % 64 = 0x12 := by rw [← fieldsOf_opcode_toNat, ← h]; rfl
  refine BitVec.eq_of_toNat_eq ?_
  rw [BitVec.toNat_and]
  exact (Nat.and_two_pow_sub_one_eq_mod w.toNat 6).trans hop

/-- Words of an opcode other than that of `mvmva` decode alike when they agree in bits 19, 10 and 5:0 (30_encoding.md R87). -/
theorem decode_eq_of_and_eq {w w' : Word} (hne : w &&& 0x3F ≠ 0x12) (h : w &&& 0x0008043F = w' &&& 0x0008043F) :
    decode w = decode w' := by
  have hop : (fieldsOf w).opcode = (fieldsOf w').opcode := extractLsb'_eq_of_and_eq h rfl
  have hsf : (fieldsOf w).sf = (fieldsOf w').sf := getLsbD_eq_of_and_eq h rfl
  have hlm : (fieldsOf w).lm = (fieldsOf w').lm := getLsbD_eq_of_and_eq h rfl
  rw [decode_eq, decode_eq, ← hop]
  cases ho : operationWith opcodeOf (fieldsOf w).opcode with
  | none => rfl
  | some o =>
    have hmvmva : o ≠ .mvmva := by
      rintro rfl
      exact hne (and_opcodeMask_eq_of_opcode (opcode_of_operationWith ho))
    exact congrArg Except.ok (instr_eq_of_modifiers hmvmva hsf hlm)

/-- Settles O2: `COMMAND` runs what its word decodes to, and words that agree in the bits named decode alike. -/
theorem ignoredBitsExecuteIdentically : Obligations.IgnoredBitsExecuteIdentically := by
  refine ⟨fun w w' s h => ?_, fun w w' s hne h => ?_⟩
  · rw [command_eq, command_eq, decode_eq, decode_eq, fieldsOf_eq_of_and_eq h]
  · rw [command_eq, command_eq, decode_eq_of_and_eq hne h]

/-! ### The step that takes a command -/

/-- A step whose oldest transaction is a `COMMAND` performs it on the rest of the script (20_memory.md R69). -/
theorem step_of_command_pending {s : State} {cmd : Word} {rest : List Transaction} (h : s.pending = .command cmd :: rest) :
    step s = command cmd { s with pending := rest } := by
  rw [step_eq, h]
  rfl

/-- Settles O5: the step performs the command, which clears `FLAG` and dispatches on what the word decodes to, in the two
branches of R83. -/
theorem stepRunsDecodedInstruction : Obligations.StepRunsDecodedInstruction := by
  intro s cmd rest hpending s0
  have hstep : step s = dispatch exec (decode cmd) s0 := step_of_command_pending hpending
  rw [hstep]
  cases decode cmd with
  | error e => rfl
  | ok i => rfl

/-- Settles O6: the word decodes to no instruction, so the command only clears `FLAG` and answers false. -/
theorem unrecognisedCommandClearsFlagOnly : Obligations.UnrecognisedCommandClearsFlagOnly := by
  intro s cmd rest hpending hop
  rw [step_of_command_pending hpending, command_eq, decode_of_notMem_opcodeValues hop]
  rfl

end Sys2Proof.Proofs
end

section
/-! The leading-zero count and the reciprocal unit (spec/40_arith_core.md R110 to R113): the range of the count and the numbers it
bounds, the range of the quotient, and what `divide` answers on either side of its entry test. -/

namespace Sys2Proof.Proofs

open Sys2Proof Sys2Proof.Machine Sys2Proof.Safety Sys2Proof.Laws

/-! ### Leading zeros -/

/-- A number below `2^w` has 0 in each of the bits above bit `w - 1`. -/
theorem leadingZeros_add_of_lt {w n : Nat} (h : n < 2 ^ w) (k : Nat) : leadingZeros (w + k) n = k + leadingZeros w n := by
  induction k with
  | zero => exact (Nat.zero_add _).symm
  | succ k ih =>
    have hbit : n.testBit (w + k) = false := Nat.testBit_lt_two_pow (h.trans_le (Nat.pow_le_pow_right (by omega) (by omega)))
    rw [← Nat.add_assoc, leadingZeros, hbit, ih]
    simp
    omega

/-- `clz16` counts in a word of 16 bits (40_arith_core.md R110). -/
theorem clz16_eq (x : Half) : clz16 x = leadingZeros 16 x.toNat := by
  have h32 := leadingZeros_add_of_lt x.isLt 16
  have hx : (x.setWidth 32).toNat = x.toNat := BitVec.toNat_setWidth_of_le (by omega)
  rw [clz16, clz32, hx, h32]
  omega

/-- A pattern with bit 31 clear has between 1 and 32 leading zeros. -/
theorem clz32_range_of_nonneg {n : Word} (h : 0 ≤ n.toInt) : 1 ≤ clz32 n ∧ clz32 n ≤ 32 := by
  have hlt : n.toNat < 2 ^ 31 := by
    have := BitVec.toInt_pos_iff.mp h
    omega
  have hsplit : clz32 n = 1 + leadingZeros 31 n.toNat := leadingZeros_add_of_lt hlt 1
  obtain ⟨hle, -⟩ := leadingZeros_spec 31 n.toNat hlt
  omega

/-! ### `lzcount` -/

theorem lzcount_of_nonneg {n : Word} (h : 0 ≤ n.toInt) : lzcount n = clz32 n := if_pos h

theorem lzcount_of_neg {n : Word} (h : n.toInt < 0) : lzcount n = clz32 (~~~n) := if_neg (not_le.mpr h)

/-- The complement of a negative word is not negative. -/
theorem toInt_not_nonneg_of_neg {n : Word} (h : n.toInt < 0) : 0 ≤ (~~~n).toInt := by
  have hmsb : n.msb = true := by rw [BitVec.msb_eq_toInt, decide_eq_true h]
  exact BitVec.toInt_nonneg_of_msb_false (by rw [BitVec.msb_not, hmsb]; rfl)

theorem lzcount_not_of_neg {n : Word} (h : n.toInt < 0) : lzcount (~~~n) = lzcount n :=
  (lzcount_of_nonneg (toInt_not_nonneg_of_neg h)).trans (lzcount_of_neg h).symm

/-- The count is in 1..32 (40_arith_core.md R110). -/
theorem lzcount_range (n : Word) : 1 ≤ lzcount n ∧ lzcount n ≤ 32 := by
  rcases le_or_gt 0 n.toInt with h | h
  · rw [lzcount_of_nonneg h]
    exact clz32_range_of_nonneg h
  · rw [lzcount_of_neg h]
    exact clz32_range_of_nonneg (toInt_not_nonneg_of_neg h)

/-- A positive number lies between the two powers of two its count names. -/
theorem two_pow_lzcount_bounds {n : Word} (h : 0 < n.toInt) :
    2 ^ (31 - lzcount n) ≤ n.toNat ∧ n.toNat < 2 ^ (32 - lzcount n) := by
  have hpos : 0 < n.toNat := by
    have := BitVec.toInt_eq_toNat_of_lt (BitVec.toInt_pos_iff.mp h.le)
    omega
  obtain ⟨-, hlt, hle, -⟩ := leadingZeros_spec 32 n.toNat n.isLt
  rw [lzcount_of_nonneg h.le]
  exact ⟨hle hpos, hlt⟩

/-- Settles O20: index 31 is `LZCR`, and a count is that of a pattern with bit 31 clear, `LZCS` or its complement. -/
theorem leadingCountInRange : Obligations.LeadingCountInRange := by
  refine ⟨fun _ => rfl, fun n => ?_⟩
  obtain ⟨hone, hle⟩ := lzcount_range n
  exact ⟨hone, hle, by decide, two_pow_lzcount_bounds, fun h => (lzcount_not_of_neg h).symm⟩

/-! ### The reciprocal unit -/

theorem asr_nonneg {v : Int} (h : 0 ≤ v) (n : Nat) : 0 ≤ asr v n := Int.ediv_nonneg h (Int.natCast_nonneg _)

/-- A shifted unsigned field is a natural number. -/
theorem shl_unsignedVal {w : Nat} (x : BitVec w) (n : Nat) : shl (unsignedVal x) n = ((x.toNat * 2 ^ n : Nat) : Int) :=
  (Nat.cast_mul _ _).symm

theorem shl_unsignedVal_nonneg {w : Nat} (x : BitVec w) (n : Nat) : 0 ≤ shl (unsignedVal x) n := by
  rw [shl_unsignedVal]
  exact Int.natCast_nonneg _

/-- The normalised divisor fits 16 bits (40_arith_core.md R111). -/
theorem normalisedDivisor_lt (z : Half) : shl (unsignedVal z) (clz16 z) < 0x10000 := by
  obtain ⟨hle, hlt, -⟩ := leadingZeros_spec 16 z.toNat z.isLt
  have hmul : z.toNat * 2 ^ leadingZeros 16 z.toNat < 2 ^ 16 := by
    calc z.toNat * 2 ^ leadingZeros 16 z.toNat
        < 2 ^ (16 - leadingZeros 16 z.toNat) * 2 ^ leadingZeros 16 z.toNat := Nat.mul_lt_mul_of_pos_right hlt (by positivity)
      _ = 2 ^ 16 := by rw [← pow_add, Nat.sub_add_cancel hle]
  rw [clz16_eq, shl_unsignedVal]
  exact_mod_cast hmul

/-- The two refinements of a table entry below `0x201` by a 16-bit divisor leave no negative reciprocal, since the product that the
first one subtracts is at most `2^25` (40_arith_core.md R111). -/
theorem refinedReciprocal_nonneg {d u : Int} (hd : d < 0x10000) (hu0 : 0 ≤ u) (hu : u ≤ 0x200) :
    0 ≤ asr (0x80 + asr (0x2000080 - d * u) 8 * u) 8 := by
  have hprod : d * u ≤ 0x10000 * 0x200 := mul_le_mul hd.le hu hu0 (by norm_num)
  have hfirst : 0 ≤ asr (0x2000080 - d * u) 8 := asr_nonneg (by omega) 8
  exact asr_nonneg (add_nonneg (by norm_num) (mul_nonneg hfirst hu0)) 8

/-- The quotient lies in `[0, 0x1ffff]` (40_arith_core.md R111). -/
theorem reciprocalQuotient_range (h z : Half) : 0 ≤ reciprocalQuotient h z ∧ reciprocalQuotient h z ≤ 0x1ffff := by
  have hunr := unr_le (asr (shl (unsignedVal z) (clz16 z) - 0x7fc0) 7).toNat
  have hrecip := refinedReciprocal_nonneg (normalisedDivisor_lt z)
    (u := (unr (asr (shl (unsignedVal z) (clz16 z) - 0x7fc0) 7).toNat : Int) + 0x101) (by omega) (by omega)
  have hquot := asr_nonneg (add_nonneg (mul_nonneg (shl_unsignedVal_nonneg h (clz16 z)) hrecip)
    (show (0 : Int) ≤ 0x8000 by norm_num)) 16
  simp only [reciprocalQuotient]
  split <;> omega

/-! ### `divide` -/

theorem divide_of_le {h z : Half} (hle : 2 * z.toNat ≤ h.toNat) : divide h z = (0x1ffff, true) := if_pos hle

theorem divide_of_lt {h z : Half} (hlt : h.toNat < 2 * z.toNat) :
    divide h z = (BitVec.ofInt 17 (reciprocalQuotient h z), false) := if_neg (not_le.mpr hlt)

/-- `DIV_OVF` is the entry test (40_arith_core.md R111). -/
theorem divide_overflow (h z : Half) : (divide h z).2 = decide (2 * z.toNat ≤ h.toNat) := by
  rcases le_or_gt (2 * z.toNat) h.toNat with hle | hlt
  · rw [divide_of_le hle, decide_eq_true hle]
  · rw [divide_of_lt hlt, decide_eq_false (not_le.mpr hlt)]

/-- 17 bits hold the quotient. -/
theorem divide_quotient_toNat {h z : Half} (hlt : h.toNat < 2 * z.toNat) :
    ((divide h z).1.toNat : Int) = reciprocalQuotient h z := by
  obtain ⟨hnonneg, hle⟩ := reciprocalQuotient_range h z
  rw [divide_of_lt hlt, BitVec.toNat_ofInt]
  omega

/-- Settles O35: the two sides of the entry test, the range of the algorithm's result, and the worked values of R113. -/
theorem divideSaturatesOrApproximates : Obligations.DivideSaturatesOrApproximates := by
  refine ⟨divide_overflow, fun h z hle => by rw [divide_of_le hle], fun h => divide_of_le (Nat.zero_le _),
    fun h z hlt => ⟨divide_quotient_toNat hlt, reciprocalQuotient_range h z⟩, ?_⟩
  decide

end Sys2Proof.Proofs
end

section
/-! The host's `READ` and `WRITE` (spec/41_register_access.md): the step that takes one (R130, R155), the clamp of a bare write to
`IR1..3` (R137), the second name of `SXY2` (R139), the view `IRGB` (R143), `H` (R150), and what a read returns after a write to
the same index (R154). -/

namespace Sys2Proof.Proofs

open Sys2Proof Sys2Proof.Machine Sys2Proof.Safety Sys2Proof.Laws

/-! ### The step that takes a read or a write -/

/-- A step performs the oldest pending transaction on the rest of the script (20_memory.md R69). -/
theorem step_of_pending {s : State} {x : Transaction} {rest : List Transaction} (h : s.pending = x :: rest) :
    step s = perform x { s with pending := rest } := by
  rw [step_eq, h]

/-- Settles O7: the step performs the transaction, a read on the registers as they are, a write by `writeIndex`. -/
theorem stepPerformsReadAndWrite : Obligations.StepPerformsReadAndWrite := by
  refine ⟨fun s idx rest h => ?_, fun s idx w rest h => ?_⟩
  · rw [step_of_pending h, perform_read]
    rfl
  · rw [step_of_pending h, perform_write]
    rfl

/-! ### Second names and single halves -/

/-- Settles O17: REGMAP gives index 15 the register of index 14, whose halves are those of the word. -/
theorem sxy3IsSxy2 : Obligations.Sxy3IsSxy2 := by
  intro w r
  rw [← lowHalf_eq, ← highHalf_eq]
  exact ⟨rfl, rfl, rfl⟩

/-- A field read sign-extended has the value of the field (41_register_access.md R130). -/
@[simp] theorem toInt_readSigned (x : Half) : (readSigned x).toInt = x.toInt := BitVec.toInt_signExtend_of_le (by norm_num)

/-- Settles O19: the write stores the low half, and the read extends the stored sign. -/
theorem hReadsSignExtended : Obligations.HReadsSignExtended := by
  intro w r
  rw [← lowHalf_eq]
  exact ⟨rfl, toInt_readSigned r.h⟩

/-! ### The clamp of a bare write to `IR1..3` -/

/-- The clamp of a bare write is saturation (41_register_access.md R137). -/
theorem clampIrWrite_eq (w : Word) : clampIrWrite w = BitVec.ofInt 16 (saturate (-32768) 32767 w.toInt) := by
  rw [clampIrWrite, clip_eq_saturate (by norm_num)]

/-- The value a bare write stores (41_register_access.md R137). -/
theorem toInt_clampIrWrite (w : Word) : (clampIrWrite w).toInt = saturate (-32768) 32767 w.toInt := by
  rw [clampIrWrite_eq, toInt_ofInt_saturate le_rfl (by norm_num) le_rfl]

/-- Settles O16: each of the three writes stores the clamped word in its lane and nothing else. -/
theorem bareWriteSaturatesIr : Obligations.BareWriteSaturatesIr := by
  intro w r x
  have hx : x = clampIrWrite w := (clampIrWrite_eq w).symm
  rw [hx]
  exact ⟨toInt_clampIrWrite w, rfl, rfl, rfl⟩

/-! ### The view `IRGB` -/

/-- A 5-bit lane of the view is the clamped quotient (41_register_access.md R143). -/
theorem toNat_irgbLane (x : Half) : ((irgbLane x).toNat : Int) = saturate 0 31 (x.toInt / 128) := by
  have hrange := saturate_range (show (0 : Int) ≤ 31 by norm_num) (x.toInt / 128)
  have hlane : irgbLane x = BitVec.ofInt 5 (saturate 0 31 (x.toInt / 128)) := by
    rw [irgbLane, clip_eq_saturate (by norm_num)]
    rfl
  rw [hlane, BitVec.toNat_ofInt]
  omega

/-- Bit vectors side by side, as a number. -/
theorem toNat_append_eq_add {m n : Nat} (x : BitVec m) (y : BitVec n) : (x ++ y).toNat = x.toNat * 2 ^ n + y.toNat := by
  rw [BitVec.toNat_append, ← Nat.shiftLeft_add_eq_or_of_lt y.isLt, Nat.shiftLeft_eq]

/-- The view as a number (41_register_access.md R143). -/
theorem toNat_irgbWord (ir : Vec3 Half) :
    (irgbWord ir).toNat = (irgbLane ir.z).toNat * 1024 + (irgbLane ir.y).toNat * 32 + (irgbLane ir.x).toNat := by
  simp only [irgbWord, toNat_append_eq_add, BitVec.toNat_ofNat]
  omega

/-- The view in exact integers (41_register_access.md R143). -/
theorem irgbWord_eq_ofInt (ir : Vec3 Half) :
    irgbWord ir = BitVec.ofInt 32 (saturate 0 31 (ir.z.toInt / 128) * 1024 + saturate 0 31 (ir.y.toInt / 128) * 32 +
      saturate 0 31 (ir.x.toInt / 128)) := by
  have hvalue := congrArg (Nat.cast (R := Int)) (toNat_irgbWord ir)
  push_cast [toNat_irgbLane] at hvalue
  rw [← hvalue, BitVec.ofInt_natCast, BitVec.ofNat_toNat, BitVec.setWidth_eq]

/-- The value a lane of the written word loads (41_register_access.md R143). -/
theorem irOfLane_extractLsb' (w : Word) (p : Nat) :
    irOfLane (w.extractLsb' p 5) = BitVec.ofNat 16 (w.toNat / 2 ^ p % 32 * 128) := by
  refine BitVec.eq_of_toNat_eq ?_
  simp [irOfLane, Nat.shiftRight_eq_div_pow, Nat.shiftLeft_eq]

/-- Settles O18: both indices read the view of `IR1..3`, and a write loads the lanes of the word, or nothing. -/
theorem irgbIsAView : Obligations.IrgbIsAView := by
  intro w r c
  refine ⟨irgbWord_eq_ofInt r.ir, rfl, ?_, rfl⟩
  have hx : irOfLane (w.extractLsb' 0 5) = BitVec.ofNat 16 (w.toNat % 32 * 128) := by
    rw [irOfLane_extractLsb', pow_zero, Nat.div_one]
  have hy : irOfLane (w.extractLsb' 5 5) = BitVec.ofNat 16 (w.toNat / 32 % 32 * 128) := irOfLane_extractLsb' w 5
  have hz : irOfLane (w.extractLsb' 10 5) = BitVec.ofNat 16 (w.toNat / 1024 % 32 * 128) := irOfLane_extractLsb' w 10
  rw [← hx, ← hy, ← hz]
  rfl

/-! ### A read of the register written -/

/-- The halves of a word make the word again (20_memory.md R62). -/
@[simp] theorem packHalves_halves (w : Word) : packHalves (lowHalf w) (highHalf w) = w := by
  rw [packHalves, lowHalf, highHalf, BitVec.extractLsb'_append_extractLsb'_eq_extractLsb' (show 16 = 0 + 16 from rfl)]
  exact BitVec.extractLsb'_eq_self

/-- The bytes of a word make the word again (41_register_access.md R133). -/
@[simp] theorem packColor_unpackColor (w : Word) : packColor (unpackColor w) = w := by
  rw [packColor, unpackColor, BitVec.extractLsb'_append_extractLsb'_eq_extractLsb' (show 24 = 16 + 8 from rfl),
    BitVec.extractLsb'_append_extractLsb'_eq_extractLsb' (show 16 = 8 + 8 from rfl),
    BitVec.extractLsb'_append_extractLsb'_eq_extractLsb' (show 8 = 0 + 8 from rfl)]
  exact BitVec.extractLsb'_eq_self

/-- A bare write to `IR1..3` reads back as the saturated value (41_register_access.md R137). -/
@[simp] theorem readSigned_clampIrWrite (w : Word) :
    readSigned (clampIrWrite w) = BitVec.ofInt 32 (saturate (-32768) 32767 w.toInt) := by
  rw [← toInt_clampIrWrite]
  rfl

/-- A lane loaded by a write to `IRGB` reads back (41_register_access.md R143). -/
@[simp] theorem irgbLane_irOfLane (c : BitVec 5) : irgbLane (irOfLane c) = c := by
  revert c
  decide

/-- A field of a word at its place is the word under the mask of that place. -/
theorem setWidth_extractLsb'_shiftLeft (w : Word) {p n : Nat} (h : p + n ≤ 32) :
    (w.extractLsb' p n).setWidth 32 <<< p = w &&& (BitVec.allOnes n).setWidth 32 <<< p := by
  refine BitVec.eq_of_getLsbD_eq fun k _ => ?_
  rw [BitVec.getLsbD_and, field_bit _ _ _ h, field_bit _ _ _ h]
  by_cases hk : p ≤ k ∧ k < p + n
  · simp [hk, show k - p < n by omega]
  · simp [hk]

/-- `IRGB` reads back the low 15 bits of the word written (41_register_access.md R154). -/
theorem irgbWord_lanes (w : Word) :
    irgbWord { x := irOfLane (w.extractLsb' 0 5), y := irOfLane (w.extractLsb' 5 5), z := irOfLane (w.extractLsb' 10 5) } =
      w &&& 0x7FFF := by
  have hmask : w.toNat &&& 0x7FFF = w.toNat % 2 ^ 15 := Nat.and_two_pow_sub_one_eq_mod w.toNat 15
  refine BitVec.eq_of_toNat_eq ?_
  rw [toNat_irgbWord, BitVec.toNat_and]
  simp only [irgbLane_irOfLane, BitVec.extractLsb'_toNat, Nat.shiftRight_eq_div_pow]
  exact Eq.trans (by omega) hmask.symm

/-- `FLAG` reads back the condition bits of the word written, bit 31 computed from them (41_register_access.md R154, R156). -/
theorem flagWord_loadFlags (w : Word) :
    flagWord (loadFlags w) = (if w &&& 0x7F87E000 = 0 then 0 else 0x80000000) ||| (w &&& 0x7FFFF000) := by
  have hfield : (w.extractLsb' 12 19).setWidth 32 <<< 12 = w &&& 0x7FFFF000 :=
    setWidth_extractLsb'_shiftLeft w (by norm_num)
  have hmask : w &&& 0x7FFFF000 &&& errorMask = w &&& 0x7F87E000 := by rw [BitVec.and_assoc]; rfl
  rw [flagWord_eq, loadFlags_eq, hfield, hmask]
  by_cases h : w &&& 0x7F87E000 = 0
  · rw [h, if_pos rfl]
    rfl
  · rw [if_neg h, bne_iff_ne.mpr h]
    rfl

/-- What a read of a register returns after a write of `w` to it, given what it returned before: the case split of
41_register_access.md R154, by register. -/
def readBack : HostReg → Word → Word → Word
  | .vz _, w, _ | .ir0, w, _ | .mat33 _, w, _ | .h, w, _ | .dqa, w, _ | .zsf3, w, _ | .zsf4, w, _ =>
    (w.setWidth 16).signExtend 32
  | .otz, w, _ | .sz _, w, _ => (w.setWidth 16).setWidth 32
  | .ir _, w, _ => BitVec.ofInt 32 (saturate (-32768) 32767 w.toInt)
  | .irgb, w, _ => w &&& 0x7FFF
  | .orgb, _, before | .lzcr, _, before => before
  | .flag, w, _ => (if w &&& 0x7F87E000 = 0 then 0 else 0x80000000) ||| (w &&& 0x7FFFF000)
  | _, w, _ => w

/-- R154 by index is R154 by the register of the index (10_state.md R21). -/
theorem readAfterWrite_eq_readBack (idx : BitVec 6) (w before : Word) :
    readAfterWrite idx.toNat w before = readBack (regMap idx) w before := by
  obtain ⟨i, hi⟩ := idx
  interval_cases i <;> rfl

/-- A read of the register just written: the field stored, extended, packed or viewed (41_register_access.md R154). -/
theorem readReg_writeReg_same (q : HostReg) (w : Word) (r : RegFile) :
    readReg flagMap q (writeReg flagMap q w r) = readBack q w (readReg flagMap q r) := by
  cases q with
  | vz _ | mat33 _ | sz _ | otz | ir0 | h | dqa | zsf3 | zsf4 =>
    simp [readReg, writeReg, readBack, readSigned, readUnsigned, ← lowHalf_eq]
  | vxy _ | sxy _ | rgb _ | rgbc | ir _ | mac _ | trans _ _ | matPair _ _ => simp [readReg, writeReg, readBack]
  | sxy3 => exact packHalves_halves w
  | irgb => exact irgbWord_lanes w
  | flag => exact flagWord_loadFlags w
  | res1 | mac0 | orgb | lzcs | lzcr | ofx | ofy | dqb => rfl

/-- Settles O13: the read is of the register written, whichever the index names. -/
theorem readAfterWriteReturns : Obligations.ReadAfterWriteReturns := by
  intro idx w r
  rw [readAfterWrite_eq_readBack]
  exact readReg_writeReg_same (regMap idx) w r

end Sys2Proof.Proofs
end

section
/-! The projection instructions `rtps` and `rtpt` (spec/42_projection.md R161, R162): what they compute and which conditions they
raise, and from that their frame. -/

namespace Sys2Proof.Proofs

open Sys2Proof Sys2Proof.Machine Sys2Proof.Safety Sys2Proof.Laws

/-! ### What they compute -/

/-- Settles O36: with the depth cue the datapath raises the conditions of steps 1 to 6 and of step 7; without it, those of
steps 1 to 6 alone. -/
theorem rtpsResult : Obligations.RtpsResult := by
  refine ⟨fun sf lm s => ?_, fun sf lm r => ?_⟩
  · exact completes_of (exec_eq_complete rfl s) (rtp_cue_eq sf lm 0 s.regs) fun f => by
      rw [flagAt_or, flagAt_projMask, flagAt_cueMask]
  · exact ⟨_, rtp_eq rfl sf lm 0 rfl r, fun f => by rw [flagAt_or, flagAt_projMask]⟩

/-- The flag word of `rtpt`: that of its three passes and of the depth cue of the last. -/
def rtptMask (sf lm : Bool) (r : RegFile) : BitVec 19 :=
  projMask sf lm r 0 ||| projMask sf lm r 1 ||| projMask sf lm r 2 ||| cueMask r 2

/-- The conditions `rtpt` raises. -/
theorem flagAt_rtptMask (sf lm : Bool) (r : RegFile) (f : FlagName) : flagAt (rtptMask sf lm r) f =
    (projFlag sf lm r 0 f || projFlag sf lm r 1 f || projFlag sf lm r 2 f || cueFlag r 2 f) := by
  simp only [rtptMask, flagAt_or, flagAt_projMask, flagAt_cueMask]

/-- The three passes of `rtpt`, in the values of the state before the first: a pass computes from input registers, which the
passes before it leave alone (42_projection.md R162). -/
theorem rtp_rtp_rtp_eq (sf lm : Bool) (r : RegFile) :
    rtp params sf lm 2 true (rtp params sf lm 1 false (rtp params sf lm 0 false r)) =
      { r with mac := projMac sf r 2, ir := projIr sf lm r 2
               sz0 := r.sz3, sz1 := projDepth r 0, sz2 := projDepth r 1, sz3 := projDepth r 2
               sxy0 := projScreen sf lm r 0, sxy1 := projScreen sf lm r 1, sxy2 := projScreen sf lm r 2
               mac0 := BitVec.ofInt 32 (cueSum r 2), ir0 := cueIr0 r 2, flag := r.flag ||| rtptMask sf lm r } := by
  rw [rtp_cue_eq, rtp_eq rfl _ _ _ rfl, rtp_eq rfl _ _ _ rfl]
  simp only [rtptMask, BitVec.or_assoc]
  rfl

/-- Settles O37: `rtpt` is three passes of the projection, the last with the depth cue. -/
theorem rtptResult : Obligations.RtptResult :=
  fun sf lm s => completes_of (exec_eq_complete rfl s) (rtp_rtp_rtp_eq sf lm s.regs) (flagAt_rtptMask sf lm s.regs)

/-! ### Their frame -/

/-- The state an instruction is known to complete with is the one it answers: the registers but for `FLAG`, and the conditions
joined to those stored before. -/
theorem eq_of_completes {i : Instr} {s t : State} {r' : RegFile} {p : FlagName → Bool} (hc : Completes i s r' p)
    (h : exec i s = .next t) :
    t = s.withRegs { r' with flag := t.regs.flag } ∧ ∀ f, flagAt t.regs.flag f = (flagAt s.regs.flag f || p f) := by
  obtain ⟨fl, hexec, hfl⟩ := hc
  rw [hexec] at h
  cases h
  exact ⟨rfl, hfl⟩

/-- `r'` differs from `r` at most in the registers a projection writes (42_projection.md R161, R162). -/
def ProjectionFrame (r r' : RegFile) : Prop :=
  r' = { r with mac0 := r'.mac0, mac := r'.mac, ir0 := r'.ir0, ir := r'.ir
                sz0 := r'.sz0, sz1 := r'.sz1, sz2 := r'.sz2, sz3 := r'.sz3
                sxy0 := r'.sxy0, sxy1 := r'.sxy1, sxy2 := r'.sxy2, flag := r'.flag }

/-- A host register that reads what a projection writes, `IRGB` and `ORGB` as views of `IR1..3` among them. -/
def readsProjection : HostReg → Bool
  | .ir0 | .ir _ | .sxy _ | .sxy3 | .sz _ | .mac0 | .mac _ | .irgb | .orgb | .flag => true
  | _ => false

/-- Through the index map those registers are these indices (10_state.md R21). -/
theorem readsProjection_regMap : ∀ idx : BitVec 6,
    idx.toNat ∉ [8, 9, 10, 11, 12, 13, 14, 15, 16, 17, 18, 19, 24, 25, 26, 27, 28, 29, 63] →
      readsProjection (regMap idx) = false := by
  decide

/-- Every other host register reads as before. -/
theorem readReg_of_projectionFrame (m : FlagMap) {q : HostReg} (hq : readsProjection q = false) {r r' : RegFile}
    (h : ProjectionFrame r r') : readReg m q r' = readReg m q r := by
  rw [h]
  cases q with
  | ir0 | ir _ | sxy _ | sxy3 | sz _ | mac0 | mac _ | irgb | orgb | flag => cases hq
  | _ => rfl

/-- What a projection that completes leaves: the registers of its frame, and conditions none of which is a colour condition. -/
theorem projection_next {sf lm : Bool} {i : Instr} {s t : State} (hi : i ∈ [Instr.rtps sf lm, .rtpt sf lm])
    (h : exec i s = .next t) :
    t = s.withRegs t.regs ∧ ProjectionFrame s.regs t.regs ∧
      ∃ p : FlagName → Bool, (∀ j, p (.colorSat j) = false) ∧ ∀ f, flagAt t.regs.flag f = (flagAt s.regs.flag f || p f) := by
  simp only [List.mem_cons, List.not_mem_nil, or_false] at hi
  obtain rfl | rfl := hi
  · obtain ⟨hrtps, -⟩ := rtpsResult
    obtain ⟨ht, hflag⟩ := eq_of_completes (hrtps sf lm s) h
    rw [ht]
    exact ⟨rfl, rfl, _, fun j => rfl, hflag⟩
  · obtain ⟨ht, hflag⟩ := eq_of_completes (rtptResult sf lm s) h
    rw [ht]
    exact ⟨rfl, rfl, _, fun j => rfl, hflag⟩

/-- Settles O29: both instructions stay in the frame of the projection, and join conditions that are no colour condition. -/
theorem frameOfProjection : Obligations.FrameOfProjection := by
  intro sf lm i s t hi h
  obtain ⟨ht, hframe, p, hcolour, hflag⟩ := projection_next hi h
  refine ⟨ht.trans (congrArg s.withRegs hframe), fun j => ?_, fun f hf => ?_, fun idx hidx => ?_⟩
  · rw [hflag, hcolour, Bool.or_false]
  · rw [hflag, hf, Bool.true_or]
  · exact readReg_of_projectionFrame flagMap (readsProjection_regMap idx hidx) hframe

end Sys2Proof.Proofs
end

section
/-! The generalized matrix-multiply-add `mvmva` (spec/43_mvmva.md R170 to R172): what it computes, the reserved matrix,
refused or supplied by the configuration, and the matrix stages of `rtps` and of the normal-colour datapath as `mvmva` (R171). -/

namespace Sys2Proof.Proofs

open Sys2Proof Sys2Proof.Machine Sys2Proof.Safety Sys2Proof.Laws

/-! ### What it computes -/

/-- `mvmva` of a named matrix completes (43_mvmva.md R170). -/
theorem mvmva_completes (sf lm : Bool) (m : MatrixName) (vx : VectorSel) (tx : TransSel) (s : State) :
    let mac := macsOf sf (rowSums (matrix m s.regs) (vectorOf vx s.regs) (transOf tx s.regs))
    Completes (.mvmva sf lm (.mat m) vx tx) s { s.regs with mac := mac, ir := irsOf lm mac }
      (rowsFlag sf lm (matrix m s.regs) (vectorOf vx s.regs) (transOf tx s.regs)) :=
  completes_of (exec_eq_complete rfl s) (mvma_eq ..) (flagAt_mvmaMask _ _ _ _ _)

/-- The reserved matrix is refused (43_mvmva.md R172). -/
theorem exec_mvmva_reserved (sf lm : Bool) (vx : VectorSel) (tx : TransSel) (s : State) :
    exec (.mvmva sf lm .reserved vx tx) s = .refused .reservedMatrix := rfl

/-- Settles O38: the operands of the statement are those the three selectors name. -/
theorem mvmvaResult : Obligations.MvmvaResult := by
  refine ⟨fun w h => decode_mvmva h, fun sf lm m vx tx s => ?_, exec_mvmva_reserved⟩
  intro r a v t mac
  have ha : a = matrix m r := by cases m <;> rfl
  have hv : v = vectorOf vx r := by
    cases vx with
    | vertex n => fin_cases n <;> rfl
    | ir => rfl
  have ht : t = transOf tx r := by
    cases tx with
    | vec b => cases b <;> rfl
    | zero => rfl
  clear_value a v t
  subst ha hv ht
  exact mvmva_completes sf lm m vx tx s

/-! ### The reserved matrix -/

/-- A configuration that supplies RESERVED_MATRIX runs the engine with the matrix it gives (43_mvmva.md R172). -/
theorem mvmva_reservedMatrix (g : RegFile → Mat3) (sf lm : Bool) (vx : VectorSel) (tx : TransSel) (s : State) :
    mvmva { params with reservedMatrix := some g } sf lm .reserved vx tx s =
      .next (s.withRegs (mvma sf lm (g s.regs) (vectorOf vx s.regs) (transOf tx s.regs) s.regs)) := rfl

/-- Settles O39: the word decodes to `mvmva` of the reserved matrix, which is refused; a configuration that supplies the matrix
puts one behind the selector. -/
theorem reservedMatrixRefusedOrConfigured : Obligations.ReservedMatrixRefusedOrConfigured := by
  refine ⟨fun cmd s hop hmx => ?_, fun g sf lm vx tx s => ?_⟩
  · rw [command_eq, decode_mvmva hop, hmx]
    rfl
  · refine ⟨s.regs.flag ||| mvmaMask sf lm (g s.regs) (vectorOf vx s.regs) (transOf tx s.regs), ?_, fun f => ?_⟩
    · rw [mvmva_reservedMatrix, mvma_eq]
    · rw [flagAt_or, flagAt_mvmaMask]

/-! ### The matrix stages of other instructions -/

/-- A condition of a lane: of its partial sums, or of the clamp of its `IR` (40_arith_core.md R107, R109). -/
def isLaneFlag : FlagName → Bool
  | .macPos _ | .macNeg _ | .irSat _ => true
  | _ => false

/-- The lane conditions of a projection are those of its matrix stage (42_projection.md R161 step 1). -/
theorem projection_laneFlag {f : FlagName} (hf : isLaneFlag f = true) (sf lm : Bool) (r : RegFile) (n : Fin 3) :
    (projFlag sf lm r n f || cueFlag r n f) = rowsFlag sf lm r.rt (vertexVec n r) (transVec .tr r) f := by
  cases f with
  | macPos j | macNeg j | irSat j => simp only [projFlag, cueFlag, Bool.or_false]
  | _ => cases hf

/-- `rtps` and `mvmva` with `(0, 0, 0)` leave the same lanes and lane conditions (43_mvmva.md R171). -/
theorem rtps_matrixStage {sf lm : Bool} {s t u : State} (ht : exec (.rtps sf lm) s = .next t)
    (hu : exec (.mvmva sf lm (.mat .rt) (.vertex 0) (.vec .tr)) s = .next u) :
    t.regs.mac = u.regs.mac ∧ t.regs.ir = u.regs.ir ∧
      ∀ f, isLaneFlag f = true → flagAt t.regs.flag f = flagAt u.regs.flag f := by
  obtain ⟨hrtps, -⟩ := rtpsResult
  obtain ⟨htregs, htflag⟩ := eq_of_completes (hrtps sf lm s) ht
  obtain ⟨huregs, huflag⟩ := eq_of_completes (mvmva_completes sf lm .rt (.vertex 0) (.vec .tr) s) hu
  refine ⟨?_, ?_, fun f hf => ?_⟩
  · rw [htregs, huregs]
    rfl
  · rw [htregs, huregs]
    rfl
  · rw [htflag, huflag, projection_laneFlag hf]
    rfl

/-- The two matrix stages of the normal-colour datapath are `mvmva` with `(1, n, 1)`, then `mvmva` with `(2, 3, 2)`
(43_mvmva.md R171, 44_lighting_color.md R181). -/
theorem nc_matrixStages {sf lm : Bool} {n : Fin 3} {s u w : State}
    (hu : exec (.mvmva sf lm (.mat .l) (.vertex n) (.vec .bk)) s = .next u)
    (hw : exec (.mvmva sf lm (.mat .lr) .ir (.vec .fc)) u = .next w) (cue : Bool) :
    nc params sf lm n cue s.regs =
      pushColor (colmul sf lm (if cue then interpolate sf lm (irBase w.regs) w.regs else w.regs)) := by
  rw [eq_effect_of_exec_next hw, eq_effect_of_exec_next hu]
  rfl

/-- Settles O40: the datapaths of `rtps` and of the normal colour run the engine on the operands that the selectors name. -/
theorem matrixStagesAreMvmva : Obligations.MatrixStagesAreMvmva := by
  refine ⟨fun sf lm s t u ht hu => ?_, fun sf lm n cue s u w hu hw => nc_matrixStages hu hw cue⟩
  obtain ⟨hmac, hir, hflag⟩ := rtps_matrixStage ht hu
  exact ⟨hmac, hir, fun j => ⟨hflag (.macPos j) rfl, hflag (.macNeg j) rfl, hflag (.irSat j) rfl⟩⟩

end Sys2Proof.Proofs
end

section
/-! The lighting and depth-cue instructions (spec/44_lighting_color.md R181 to R190): what they compute and which conditions they
raise; and the frame of the instructions that push a colour, `gpf` and `gpl` among them (R180). -/

namespace Sys2Proof.Proofs

open Sys2Proof Sys2Proof.Machine Sys2Proof.Safety Sys2Proof.Laws

/-! ### The normal colour, in the document's order -/

/-- Settles O41: `ncds` is the normal-colour datapath on `V[0]`, with the blend. -/
theorem ncdsResult : Obligations.NcdsResult :=
  fun sf lm s => completes_of (exec_eq_complete rfl s) (nc_eq sf lm 0 true s.regs) (flagAt_ncMask sf lm s.regs 0 true)

/-- Without the blend, the one stage that reads `IR0`, the lanes do not depend on it (44_lighting_color.md R183). -/
theorem ncMac_ir0 (sf lm : Bool) (r : RegFile) (x : Half) (n : Fin 3) :
    ncMac sf lm { r with ir0 := x } n false = ncMac sf lm r n false := by
  simp only [ncMac, stageCIr, Bool.false_eq_true, if_false]
  rfl

/-- Nor do the conditions raised (44_lighting_color.md R183). -/
theorem ncFlag_ir0 (sf lm : Bool) (r : RegFile) (x : Half) (n : Fin 3) :
    ncFlag sf lm { r with ir0 := x } n false = ncFlag sf lm r n false := by
  funext f
  simp only [ncFlag, ncMac_ir0, stageCIr, Bool.false_and, Bool.false_eq_true, if_false]
  rfl

/-- Settles O42: `nccs` is the normal-colour datapath on `V[0]`, without the blend. -/
theorem nccsResult : Obligations.NccsResult :=
  ⟨fun sf lm s => completes_of (exec_eq_complete rfl s) (nc_eq sf lm 0 false s.regs) (flagAt_ncMask sf lm s.regs 0 false),
    fun sf lm r x => ⟨ncMac_ir0 sf lm r x 0, ncFlag_ir0 sf lm r x 0⟩⟩

/-- The flag word of the normal-colour datapath on the three vertices. -/
def ncThreeMask (sf lm cue : Bool) (r : RegFile) : BitVec 19 :=
  ncMask sf lm r 0 cue ||| ncMask sf lm r 1 cue ||| ncMask sf lm r 2 cue

/-- The conditions the three passes raise. -/
theorem flagAt_ncThreeMask (sf lm cue : Bool) (r : RegFile) (f : FlagName) : flagAt (ncThreeMask sf lm cue r) f =
    (ncFlag sf lm r 0 cue f || ncFlag sf lm r 1 cue f || ncFlag sf lm r 2 cue f) := by
  simp only [ncThreeMask, flagAt_or, flagAt_ncMask]

/-- The datapath on the three vertices, in the values of the state before the first pass: a pass computes from registers that
the passes before it leave alone (44_lighting_color.md R184, R185). -/
theorem nc_nc_nc_eq (sf lm cue : Bool) (r : RegFile) :
    nc params sf lm 2 cue (nc params sf lm 1 cue (nc params sf lm 0 cue r)) =
      { r with mac := ncMac sf lm r 2 cue, ir := irsOf lm (ncMac sf lm r 2 cue)
               rgb0 := pushed (ncMac sf lm r 0 cue) r.rgbc.code, rgb1 := pushed (ncMac sf lm r 1 cue) r.rgbc.code
               rgb2 := pushed (ncMac sf lm r 2 cue) r.rgbc.code, flag := r.flag ||| ncThreeMask sf lm cue r } := by
  rw [nc_eq sf lm 0, nc_eq_of sf lm cue 1 (r0 := r), nc_eq_of sf lm cue 2 (r0 := r)]
  · simp only [ncThreeMask, BitVec.or_assoc]
  all_goals rfl

/-- Settles O43: `ncdt` is the datapath on the three vertices, with the blend. -/
theorem ncdtResult : Obligations.NcdtResult :=
  fun sf lm s =>
    completes_of (exec_eq_complete rfl s) (nc_nc_nc_eq sf lm true s.regs) (flagAt_ncThreeMask sf lm true s.regs)

/-- Settles O44: `ncct` is the datapath on the three vertices, without the blend. -/
theorem ncctResult : Obligations.NcctResult :=
  fun sf lm s =>
    completes_of (exec_eq_complete rfl s) (nc_nc_nc_eq sf lm false s.regs) (flagAt_ncThreeMask sf lm false s.regs)

/-! ### The normal colour, in the console's order -/

/-- The flag word of the normal-colour datapath in the console's order. -/
def consoleMask (sf lm : Bool) (r : RegFile) (n : Fin 3) (cue : Bool) : BitVec 19 :=
  mvmaMask sf lm r.l (vertexVec n r) { x := 0, y := 0, z := 0 }
    ||| mvmaMask sf lm r.lr
      (signedVec (irsOf lm (macsOf sf (rowSums r.l (vertexVec n r) { x := 0, y := 0, z := 0 })))) (transVec .bk r)
    ||| (if cue then blendMask sf lm r (colorSums r.rgbc (consoleIr sf lm r n))
      else lanesMask sf lm (colorSums r.rgbc (consoleIr sf lm r n)))
    ||| colorMask (consoleMac sf lm r n cue)

/-- The datapath in the console's order (44_lighting_color.md R190). -/
theorem ncConsole_eq (sf lm : Bool) (n : Fin 3) (cue : Bool) (r : RegFile) :
    ncConsole sf lm n cue r =
      { r with mac := consoleMac sf lm r n cue, ir := irsOf lm (consoleMac sf lm r n cue), rgb0 := r.rgb1, rgb1 := r.rgb2
               rgb2 := pushed (consoleMac sf lm r n cue) r.rgbc.code, flag := r.flag ||| consoleMask sf lm r n cue } := by
  simp only [ncConsole, mvma_eq, lightTimesColor_eq]
  cases cue with
  | true =>
    simp only [if_true, pushColor_interpolate_eq, consoleMask, BitVec.or_assoc]
    rfl
  | false =>
    simp only [Bool.false_eq_true, if_false, pushColor_setLanes_eq, consoleMask, BitVec.or_assoc]
    rfl

/-- The conditions the datapath raises in the console's order. -/
theorem flagAt_consoleMask (sf lm : Bool) (r : RegFile) (n : Fin 3) (cue : Bool) (f : FlagName) :
    flagAt (consoleMask sf lm r n cue) f = consoleFlag sf lm r n cue f := by
  simp only [consoleMask, flagAt_or, flagAt_mvmaMask, flagAt_colorMask]
  cases cue with
  | true =>
    rw [if_pos rfl, flagAt_blendMask]
    rfl
  | false =>
    rw [if_neg Bool.false_ne_true, flagAt_lanesMask]
    rfl

/-- Settles O45: LIGHT_PIPELINE = console selects the datapath in the console's order. -/
theorem consoleOrderResult : Obligations.ConsoleOrderResult :=
  fun sf lm n cue r => ⟨r.flag ||| consoleMask sf lm r n cue, ncConsole_eq sf lm n cue r, fun f => by
    rw [flagAt_or, flagAt_consoleMask]⟩

/-! ### The depth cue -/

/-- An instruction that blends a base toward the far colour and pushes the result completes (40_arith_core.md R118, R119). -/
theorem completes_of_blend {i : Instr} {s : State} {f : RegFile → RegFile} (sf lm : Bool) (b : Vec3 Int)
    (he : exec i s = complete f s) (hf : f s.regs = pushColor (interpolate sf lm b s.regs)) :
    let mac := blendMac sf s.regs b
    Completes i s
      { s.regs with mac := mac, ir := irsOf lm mac, rgb0 := s.regs.rgb1, rgb1 := s.regs.rgb2
                    rgb2 := pushed mac s.regs.rgbc.code }
      (blendPushFlag sf lm s.regs b) :=
  completes_of he (hf.trans (pushColor_interpolate_eq sf lm b s.regs)) (flagAt_blendPush sf lm b s.regs)

/-- Settles O46: the base is the current colour `<< 16`. -/
theorem dcpsResult : Obligations.DcpsResult :=
  fun sf lm s => completes_of_blend sf lm (byteSums s.regs.rgbc) (exec_eq_complete rfl s) (dcp_eq sf lm s.regs.rgbc s.regs)

/-- Settles O48: the base is the light times the current colour. -/
theorem dcplResult : Obligations.DcplResult :=
  fun sf lm s => completes_of_blend sf lm (colorSums s.regs.rgbc s.regs.ir) (exec_eq_complete rfl s) (by
    simp only [effect, lightTimesColor_eq])

/-- Settles O49: the base is `IR << 12`. -/
theorem intplResult : Obligations.IntplResult :=
  fun sf lm s => completes_of_blend sf lm (irSums s.regs.ir) (exec_eq_complete rfl s) (by
    simp only [effect, irBase_eq])

/-- The flag word of the depth cue of a colour and its push. -/
def dcpMask (sf lm : Bool) (r : RegFile) (c : Color) : BitVec 19 :=
  blendMask sf lm r (byteSums c) ||| colorMask (blendMac sf r (byteSums c))

/-- The flag word of `dcpt`: that of its three passes. -/
def dcptMask (sf lm : Bool) (r : RegFile) : BitVec 19 :=
  dcpMask sf lm r r.rgb0 ||| dcpMask sf lm r r.rgb1 ||| dcpMask sf lm r r.rgb2

/-- The conditions `dcpt` raises. -/
theorem flagAt_dcptMask (sf lm : Bool) (r : RegFile) (f : FlagName) : flagAt (dcptMask sf lm r) f =
    (blendPushFlag sf lm r (byteSums r.rgb0) f || blendPushFlag sf lm r (byteSums r.rgb1) f
      || blendPushFlag sf lm r (byteSums r.rgb2) f) := by
  rw [dcptMask, flagAt_or, flagAt_or]
  simp only [dcpMask, flagAt_blendPush]

/-- The three passes of `dcpt`, in the values of the state before the first: each pass moves the next original colour into the
oldest slot, and leaves `FC` and `IR0` alone (44_lighting_color.md R187). -/
theorem dcpOldest_dcpOldest_dcpOldest_eq (sf lm : Bool) (r : RegFile) :
    dcpOldest sf lm (dcpOldest sf lm (dcpOldest sf lm r)) =
      { r with mac := blendMac sf r (byteSums r.rgb2), ir := irsOf lm (blendMac sf r (byteSums r.rgb2))
               rgb0 := pushed (blendMac sf r (byteSums r.rgb0)) r.rgbc.code
               rgb1 := pushed (blendMac sf r (byteSums r.rgb1)) r.rgbc.code
               rgb2 := pushed (blendMac sf r (byteSums r.rgb2)) r.rgbc.code, flag := r.flag ||| dcptMask sf lm r } := by
  simp only [dcpOldest, dcp_eq, pushColor_interpolate_eq, dcptMask, dcpMask, BitVec.or_assoc]
  rfl

/-- Settles O47: `dcpt` is three passes of the depth cue over the FIFO. -/
theorem dcptResult : Obligations.DcptResult :=
  fun sf lm s => completes_of (exec_eq_complete rfl s) (dcpOldest_dcpOldest_dcpOldest_eq sf lm s.regs)
    (flagAt_dcptMask sf lm s.regs)

/-! ### The frame of the instructions that push a colour -/

/-- A condition of a lane, or of a pushed colour byte (40_arith_core.md R107, R109, R118). -/
def isColourFlag : FlagName → Bool
  | .colorSat _ => true
  | f => isLaneFlag f

/-- A condition of another name is none of them. -/
theorem isColourFlag_eq_false {f : FlagName}
    (hf : ∀ j, f ≠ .macPos j ∧ f ≠ .macNeg j ∧ f ≠ .irSat j ∧ f ≠ .colorSat j) : isColourFlag f = false := by
  cases f with
  | macPos j | macNeg j | irSat j | colorSat j => simpa using hf j
  | _ => rfl

/-- The flag word raises only conditions of lanes and of pushed colours. -/
def OnlyColourFlags (m : BitVec 19) : Prop := ∀ f, isColourFlag f = false → flagAt m f = false

theorem onlyColourFlags_lanesMask (sf lm : Bool) (v : Vec3 Int) : OnlyColourFlags (lanesMask sf lm v) := by
  intro f hf
  rw [flagAt_lanesMask]
  cases f with
  | macPos j | macNeg j | irSat j => cases hf
  | _ => rfl

theorem onlyColourFlags_mvmaMask (sf lm : Bool) (a : Mat3) (v t : Vec3 Int) : OnlyColourFlags (mvmaMask sf lm a v t) := by
  intro f hf
  rw [flagAt_mvmaMask]
  cases f with
  | macPos j | macNeg j | irSat j => cases hf
  | _ => rfl

theorem onlyColourFlags_colorMask (m : Vec3 Word) : OnlyColourFlags (colorMask m) := by
  intro f hf
  rw [flagAt_colorMask]
  cases f with
  | colorSat j => cases hf
  | _ => rfl

/-- `r'` differs from `r` at most in the registers an instruction that pushes a colour writes, and its `FLAG` in conditions of
lanes and of pushed colours joined to those of `r` (44_lighting_color.md R180). -/
structure ColourFrame (r r' : RegFile) : Prop where
  regs : r' = { r with mac := r'.mac, ir := r'.ir, rgb0 := r'.rgb0, rgb1 := r'.rgb1, rgb2 := r'.rgb2, flag := r'.flag }
  flags : ∃ m, OnlyColourFlags m ∧ r'.flag = r.flag ||| m

namespace ColourFrame

theorem refl (r : RegFile) : ColourFrame r r := ⟨rfl, 0, fun f _ => flagAt_zero f, BitVec.or_zero.symm⟩

section Operations

variable {r r' : RegFile} (h : ColourFrame r r') {sf lm : Bool}

include h

/-- A further write within the frame that joins such conditions. -/
theorem of_write (mac : Vec3 Word) (ir : Vec3 Half) (c0 c1 c2 : Color) {m : BitVec 19} (hm : OnlyColourFlags m) :
    ColourFrame r { r' with mac := mac, ir := ir, rgb0 := c0, rgb1 := c1, rgb2 := c2, flag := r'.flag ||| m } where
  regs := by rw [h.regs]
  flags := by
    obtain ⟨m', hm', hflag⟩ := h.flags
    refine ⟨m' ||| m, fun f hf => ?_, ?_⟩
    · rw [flagAt_or, hm' f hf, hm f hf, Bool.or_false]
    · rw [hflag, BitVec.or_assoc]

theorem setLanes {v : Vec3 Int} : ColourFrame r (setLanes sf lm v r') := by
  rw [setLanes_eq]
  exact h.of_write _ _ _ _ _ (onlyColourFlags_lanesMask sf lm v)

theorem mvma {a : Mat3} {v t : Vec3 Int} : ColourFrame r (mvma sf lm a v t r') := by
  rw [mvma_eq]
  exact h.of_write _ _ _ _ _ (onlyColourFlags_mvmaMask sf lm a v t)

theorem pushColor : ColourFrame r (pushColor r') := by
  rw [pushColor_eq]
  exact h.of_write _ _ _ _ _ (onlyColourFlags_colorMask r'.mac)

theorem interpolate {b : Vec3 Int} : ColourFrame r (interpolate sf lm b r') := h.setLanes.setLanes

theorem dcp {c : Color} : ColourFrame r (dcp sf lm c r') := h.interpolate.pushColor

theorem nc {n : Fin 3} {cue : Bool} : ColourFrame r (nc params sf lm n cue r') := by
  cases cue with
  | true => exact h.mvma.mvma.interpolate.setLanes.pushColor
  | false => exact h.mvma.mvma.setLanes.pushColor

end Operations

end ColourFrame

/-- The ten instructions that push a colour. -/
def colourInstructions (sf lm : Bool) : List Instr :=
  [.ncds sf lm, .nccs sf lm, .ncdt sf lm, .ncct sf lm, .dcps sf lm, .dcpt sf lm, .dcpl sf lm, .intpl sf lm, .gpf sf lm,
    .gpl sf lm]

/-- The effect of each is built of operations that stay in the frame. -/
theorem effect_colourFrame {sf lm : Bool} {i : Instr} (hi : i ∈ colourInstructions sf lm) (r : RegFile) :
    ColourFrame r (effect i r) := by
  have h := ColourFrame.refl r
  simp only [colourInstructions, List.mem_cons, List.not_mem_nil, or_false] at hi
  obtain rfl | rfl | rfl | rfl | rfl | rfl | rfl | rfl | rfl | rfl := hi
  · exact h.nc
  · exact h.nc
  · exact h.nc.nc.nc
  · exact h.nc.nc.nc
  · exact h.dcp
  · exact h.dcp.dcp.dcp
  · exact h.interpolate.pushColor
  · exact h.interpolate.pushColor
  · exact h.setLanes.pushColor
  · exact h.setLanes.pushColor

/-- A host register that reads what an instruction that pushes a colour writes, `IRGB` and `ORGB` as views of `IR1..3` among
them. -/
def readsColourFrame : HostReg → Bool
  | .ir _ | .mac _ | .rgb _ | .irgb | .orgb | .flag => true
  | _ => false

/-- Through the index map those registers are these indices (10_state.md R21). -/
theorem readsColourFrame_regMap : ∀ idx : BitVec 6,
    idx.toNat ∉ [9, 10, 11, 20, 21, 22, 25, 26, 27, 28, 29, 63] → readsColourFrame (regMap idx) = false := by
  decide

/-- Every other host register reads as before. -/
theorem readReg_of_colourFrame (m : FlagMap) {q : HostReg} (hq : readsColourFrame q = false) {r r' : RegFile}
    (h : ColourFrame r r') : readReg m q r' = readReg m q r := by
  rw [h.regs]
  cases q with
  | ir _ | mac _ | rgb _ | irgb | orgb | flag => cases hq
  | _ => rfl

/-- Settles O27: each of the ten stays in the frame, whose registers the other indices do not read. -/
theorem frameOfColourInstructions : Obligations.FrameOfColourInstructions := by
  intro sf lm i s t hi h
  have hframe : ColourFrame s.regs t.regs := by
    rw [eq_effect_of_exec_next h]
    exact effect_colourFrame hi s.regs
  obtain ⟨m, hm, hflag⟩ := hframe.flags
  refine ⟨?_, fun f hf => ?_, fun f hf => ?_, fun idx hidx => ?_⟩
  · rw [← hframe.regs, eq_effect_of_exec_next h, withRegs_regs]
  · rw [hflag, flagAt_or, hm f (isColourFlag_eq_false hf), Bool.or_false]
  · rw [hflag, flagAt_or, hf, Bool.true_or]
  · exact readReg_of_colourFrame flagMap (readsColourFrame_regMap idx hidx) hframe

end Sys2Proof.Proofs
end

section
/-! The utility instructions `sqr`, `op`, `gpf`, `gpl`, `nclip`, `avsz3`, `avsz4` (spec/45_utility.md R201 to R207): what they
compute and which conditions they raise, and from that the frames of the lane instructions and of the scalar instructions. -/

namespace Sys2Proof.Proofs

open Sys2Proof Sys2Proof.Machine Sys2Proof.Safety Sys2Proof.Laws

/-! ### Lane sums of 16-bit products -/

/-- A product of two signed 16-bit values is within `2^30`. -/
theorem toInt_mul_toInt_bounds (x y : Half) : -2 ^ 30 ≤ x.toInt * y.toInt ∧ x.toInt * y.toInt ≤ 2 ^ 30 :=
  ⟨BitVec.le_toInt_mul_toInt, BitVec.toInt_mul_toInt_le⟩

/-- Lane sums within `2^31` raise no 44-bit condition (40_arith_core.md R101). -/
theorem lanesFlag_mac_eq_false {v : Vec3 Int} (hv : ∀ j, -2 ^ 31 ≤ v.get j ∧ v.get j ≤ 2 ^ 31) (sf lm : Bool) (j : Lane) :
    lanesFlag sf lm v (.macPos j) = false ∧ lanesFlag sf lm v (.macNeg j) = false := by
  have hj := hv j
  simp only [lanesFlag, above44, below44, decide_eq_false_iff_not]
  omega

/-! ### The instructions that store three lane sums -/

/-- An instruction that stores three lane sums completes (40_arith_core.md R108). -/
theorem completes_of_setLanes {i : Instr} {s : State} {f : RegFile → RegFile} (sf lm : Bool) (v : Vec3 Int)
    (he : exec i s = complete f s) (hf : f s.regs = setLanes sf lm v s.regs) :
    Completes i s { s.regs with mac := macsOf sf v, ir := irsOf lm (macsOf sf v) } (lanesFlag sf lm v) :=
  completes_of he (hf.trans (setLanes_eq sf lm v s.regs)) (flagAt_lanesMask sf lm v)

/-- Settles O53: the products of the difference are within `2^30`, far from 44 bits. -/
theorem opResult : Obligations.OpResult := by
  intro sf lm s r d1 d2 d3 p mac
  refine ⟨completes_of_setLanes sf lm p (exec_eq_complete rfl s) rfl, lanesFlag_mac_eq_false (fun j => ?_) sf lm⟩
  have hdiff : ∀ a b c d : Half, -2 ^ 31 ≤ a.toInt * b.toInt - c.toInt * d.toInt ∧
      a.toInt * b.toInt - c.toInt * d.toInt ≤ 2 ^ 31 := fun a b c d => by
    have hab := toInt_mul_toInt_bounds a b
    have hcd := toInt_mul_toInt_bounds c d
    omega
  cases j <;> exact hdiff _ _ _ _

/-! ### `sqr`, whose results are never negative -/

/-- The lower bound of the clamp of `IR` does not matter to a value that is not negative (40_arith_core.md R109). -/
theorem saturate_irLow_of_nonneg {x : Int} (hx : 0 ≤ x) (lm : Bool) :
    saturate (irLow lm) 32767 x = saturate (irLow false) 32767 x := by
  cases lm with
  | true =>
    simp only [saturate, irLow, if_true, Bool.false_eq_true, if_false]
    omega
  | false => rfl

/-- Lane sums whose `MAC` are not negative are stored alike under either `lm` (40_arith_core.md R109). -/
theorem setLanes_lm_of_nonneg {sf : Bool} {v : Vec3 Int} (hv : ∀ j, 0 ≤ ((macsOf sf v).get j).toInt) (lm : Bool) (r : RegFile) :
    setLanes sf lm v r = setLanes sf false v r := by
  have hir : irsOf lm (macsOf sf v) = irsOf false (macsOf sf v) := by
    have hlane : ∀ j, irOf lm ((macsOf sf v).get j) = irOf false ((macsOf sf v).get j) := fun j =>
      congrArg (BitVec.ofInt 16) (saturate_irLow_of_nonneg (hv j) lm)
    simp only [irsOf, Vec3.map, Vec3.mk.injEq]
    exact ⟨hlane .one, hlane .two, hlane .three⟩
  have hmask : lanesMask sf lm v = lanesMask sf false v := flag_ext fun f => by
    rw [flagAt_lanesMask, flagAt_lanesMask]
    cases f with
    | irSat j => simp only [lanesFlag, outside, saturate_irLow_of_nonneg (hv j) lm]
    | _ => rfl
  rw [setLanes_eq, setLanes_eq, hir, hmask]

/-- `MAC<i>` of a sum that fits it is not negative when the sum is not. -/
theorem toInt_macOf_nonneg {v : Int} (hv : 0 ≤ v ∧ v ≤ 2 ^ 30) (sf : Bool) : 0 ≤ (macOf sf v).toInt := by
  have hfits : ∀ x : Int, 0 ≤ x ∧ x ≤ 2 ^ 30 → 0 ≤ (BitVec.ofInt 32 x).toInt := fun x hx => by
    rw [BitVec.toInt_ofInt, Int.bmod_eq_of_le (by omega) (by omega)]
    exact hx.1
  cases sf with
  | true => exact hfits (v / 4096) (by omega)
  | false => exact hfits v hv

/-- The sums of `sqr` (45_utility.md R203). -/
def squares (r : RegFile) : Vec3 Int := { x := r.ir.x.toInt ^ 2, y := r.ir.y.toInt ^ 2, z := r.ir.z.toInt ^ 2 }

/-- `sqr` stores the squares (45_utility.md R203). -/
theorem effect_sqr (sf lm : Bool) (r : RegFile) : effect (.sqr sf lm) r = setLanes sf lm (squares r) r := by
  simp only [effect, squares, sq]
  rfl

/-- A square is neither negative nor above `2^30`. -/
theorem squares_bounds (r : RegFile) (j : Lane) : 0 ≤ (squares r).get j ∧ (squares r).get j ≤ 2 ^ 30 := by
  have hsq : ∀ x : Half, 0 ≤ x.toInt ^ 2 ∧ x.toInt ^ 2 ≤ 2 ^ 30 := fun x => by
    obtain ⟨-, hmul⟩ := toInt_mul_toInt_bounds x x
    exact ⟨sq_nonneg _, (sq x.toInt).le.trans hmul⟩
  cases j with
  | one => exact hsq r.ir.x
  | two => exact hsq r.ir.y
  | three => exact hsq r.ir.z

/-- `MAC<i>` of a square is not negative. -/
theorem macsOf_squares_nonneg (sf : Bool) (r : RegFile) (j : Lane) : 0 ≤ ((macsOf sf (squares r)).get j).toInt := by
  have hmac := toInt_macOf_nonneg (squares_bounds r j) sf
  cases j <;> exact hmac

/-- Settles O52: the squares pass the 44-bit check, and their `MAC` the lower clamp under either `lm`. -/
theorem sqrResult : Obligations.SqrResult := by
  refine ⟨fun w h => decode_of_opcode .sqr h, fun sf lm s => ⟨?_, lanesFlag_mac_eq_false (fun j => ?_) sf lm, ?_⟩⟩
  · exact completes_of_setLanes sf lm (squares s.regs) (exec_eq_complete rfl s) (effect_sqr sf lm s.regs)
  · obtain ⟨hlo, hhi⟩ := squares_bounds s.regs j
    exact ⟨le_trans (by norm_num) hlo, hhi.trans (by norm_num)⟩
  · rw [exec_eq_complete rfl, exec_eq_complete rfl, complete_eq, complete_eq, effect_sqr, effect_sqr,
      setLanes_lm_of_nonneg (macsOf_squares_nonneg sf s.regs)]

/-! ### `gpf` and `gpl`, which push the result -/

/-- An instruction that stores three lane sums and pushes the colour completes (40_arith_core.md R108, R118). -/
theorem completes_of_setLanes_push {i : Instr} {s : State} {f : RegFile → RegFile} (sf lm : Bool) (v : Vec3 Int)
    (he : exec i s = complete f s) (hf : f s.regs = pushColor (setLanes sf lm v s.regs)) :
    let mac := macsOf sf v
    Completes i s
      { s.regs with mac := mac, ir := irsOf lm mac, rgb0 := s.regs.rgb1, rgb1 := s.regs.rgb2
                    rgb2 := pushed mac s.regs.rgbc.code }
      (fun f => lanesFlag sf lm v f || pushedFlag mac f) :=
  completes_of he (hf.trans (pushColor_setLanes_eq sf lm v s.regs)) fun g => by
    rw [flagAt_or, flagAt_lanesMask, flagAt_colorMask]

/-- Settles O50: a product of two 16-bit values is within `2^30`, far from 44 bits. -/
theorem gpfResult : Obligations.GpfResult := by
  intro sf lm s r p mac
  refine ⟨completes_of_setLanes_push sf lm p (exec_eq_complete rfl s) rfl, lanesFlag_mac_eq_false (fun j => ?_) sf lm⟩
  have hprod : ∀ x : Half, -2 ^ 31 ≤ r.ir0.toInt * x.toInt ∧ r.ir0.toInt * x.toInt ≤ 2 ^ 31 := fun x => by
    have := toInt_mul_toInt_bounds r.ir0 x
    omega
  cases j <;> exact hprod _

/-- The sums of `gpl`: the shift of the old `MAC` is a product with 4096 or 1 (45_utility.md R202). -/
theorem gplSums_eq (sf : Bool) (r : RegFile) :
    let k : Int := if sf then 4096 else 1
    gplSums sf r =
      { x := r.mac.x.toInt * k + r.ir0.toInt * r.ir.x.toInt
        y := r.mac.y.toInt * k + r.ir0.toInt * r.ir.y.toInt
        z := r.mac.z.toInt * k + r.ir0.toInt * r.ir.z.toInt } := by
  cases sf <;> rfl

/-- Settles O51: the effect of `gpl` is the store of its sums and the push. -/
theorem gplResult : Obligations.GplResult := fun sf lm s =>
  completes_of_setLanes_push sf lm _ (exec_eq_complete rfl s)
    (congrArg (fun v => pushColor (setLanes sf lm v s.regs)) (gplSums_eq sf s.regs))

/-! ### `nclip` -/

/-- `nclip` stores the six-product sum in `MAC0` (45_utility.md R205). -/
theorem exec_nclip (s : State) : exec .nclip s = complete (setMac0 (clipSum s.regs)) s := by
  rw [exec_eq_complete rfl, complete_eq, complete_eq]
  simp only [effect, nclipValue_eq]

/-- Settles O54: the conditions are those of the one `MAC0` write. -/
theorem nclipResult : Obligations.NclipResult := fun s =>
  completes_of (exec_nclip s) (setMac0_eq (clipSum s.regs) s.regs) (flagAt_mac0Flags (clipSum s.regs))

/-- A `MAC0` write of a value that fits 32 bits raises nothing (40_arith_core.md R103). -/
theorem setMac0_of_fits {v : Int} (hlo : -2 ^ 31 ≤ v) (hhi : v < 2 ^ 31) (r : RegFile) :
    setMac0 v r = { r with mac0 := BitVec.ofInt 32 v } := by
  have hzero : mac0Flags v = 0#19 := flag_ext fun f => by
    rw [flagAt_mac0Flags, flagAt_zero]
    cases f with
    | mac0Pos | mac0Neg => exact decide_eq_false (by omega)
    | _ => rfl
  rw [setMac0_eq, hzero, BitVec.or_zero]

/-- `nclip` leaves `FLAG` as it is when its sum fits 32 bits (45_utility.md R205). -/
theorem exec_nclip_of_fits {s : State} (hlo : -2 ^ 31 ≤ clipSum s.regs) (hhi : clipSum s.regs < 2 ^ 31) :
    exec .nclip s = .next (s.withRegs { s.regs with mac0 := BitVec.ofInt 32 (clipSum s.regs) }) := by
  rw [exec_nclip, complete_eq, setMac0_of_fits hlo hhi]

/-- In the screen range the coordinates of two positions are less than `2^11` apart. -/
theorem abs_sub_lt_of_inScreenRange {p q : ScreenXY} (hp : inScreenRange p = true) (hq : inScreenRange q = true) :
    |p.x.toInt - q.x.toInt| < 2 ^ 11 ∧ |p.y.toInt - q.y.toInt| < 2 ^ 11 := by
  simp only [inScreenRange, Bool.and_eq_true, decide_eq_true_eq] at hp hq
  simp only [abs_lt]
  omega

/-- A product of two differences below `2^11` is below `2^22`. -/
theorem abs_mul_lt_two_pow {a b : Int} (ha : |a| < 2 ^ 11) (hb : |b| < 2 ^ 11) : |a * b| < 2 ^ 22 :=
  calc |a * b| = |a| * |b| := abs_mul a b
    _ < 2 ^ 11 * 2 ^ 11 := mul_lt_mul'' ha hb (abs_nonneg a) (abs_nonneg b)
    _ = 2 ^ 22 := by norm_num

/-- On positions in the screen range the sum of `nclip` is below `2^24` (45_utility.md R205 (b)). -/
theorem clipSum_bounds {r : RegFile} (h : ScreenInRange r) : -2 ^ 24 < clipSum r ∧ clipSum r < 2 ^ 24 := by
  obtain ⟨h0, h1, h2⟩ := h
  obtain ⟨hx1, hy1⟩ := abs_sub_lt_of_inScreenRange h1 h0
  obtain ⟨hx2, hy2⟩ := abs_sub_lt_of_inScreenRange h2 h0
  have ha := abs_lt.mp (abs_mul_lt_two_pow hx1 hy2)
  have hb := abs_lt.mp (abs_mul_lt_two_pow hy1 hx2)
  rw [← nclipValue_eq, nclipValue]
  omega

/-- Settles O33: the sum is below `2^24`, so it fits `MAC0`. -/
theorem nclipInScreenRangeRaisesNothing : Obligations.NclipInScreenRangeRaisesNothing := by
  intro s h0 h1 h2
  obtain ⟨hlo, hhi⟩ := clipSum_bounds ⟨h0, h1, h2⟩
  exact ⟨exec_nclip_of_fits (by omega) (by omega), hlo, hhi⟩

/-- Settles O55: the two products of differences are both `a * b * dx * dy`, so the sum is 0. -/
theorem nclipOfCollinearPointsIsZero : Obligations.NclipOfCollinearPointsIsZero := by
  intro s a b dx dy hx1 hy1 hx2 hy2
  have hzero : clipSum s.regs = 0 := by
    rw [← nclipValue_eq, nclipValue, hx1, hy1, hx2, hy2]
    ring
  rw [exec_nclip_of_fits (by rw [hzero]; norm_num) (by rw [hzero]; norm_num), hzero]
  rfl

/-! ### `avsz3` and `avsz4` -/

/-- An instruction that stores a sum in `MAC0` and then sets `OTZ` completes (40_arith_core.md R114, R115). -/
theorem completes_of_setOtz {i : Instr} {s : State} {f : RegFile → RegFile} (v : Int) (he : exec i s = complete f s)
    (hf : f s.regs = setOtz (setMac0 v s.regs)) :
    Completes i s { s.regs with mac0 := BitVec.ofInt 32 v, otz := otzOf v } (averageFlag v) :=
  completes_of he (hf.trans (setOtz_setMac0_eq v s.regs)) (flagAt_average v)

/-- Settles O56: the sum of the three depths is a sum of naturals. -/
theorem avsz3Result : Obligations.Avsz3Result := fun s =>
  completes_of_setOtz _ (exec_eq_complete rfl s) (by
    simp only [effect, unsignedVal, Nat.cast_add])

/-- Settles O57: the sum of the four depths is a sum of naturals. -/
theorem avsz4Result : Obligations.Avsz4Result := fun s =>
  completes_of_setOtz _ (exec_eq_complete rfl s) (by
    simp only [effect, unsignedVal, Nat.cast_add])

/-! ### The frame of the scalar instructions -/

/-- A `MAC0` write raises no condition but its two (40_arith_core.md R103). -/
theorem mac0Flag_eq_false {f : FlagName} (hpos : f ≠ .mac0Pos) (hneg : f ≠ .mac0Neg) (v : Int) : mac0Flag v f = false := by
  cases f with
  | mac0Pos => exact absurd rfl hpos
  | mac0Neg => exact absurd rfl hneg
  | _ => rfl

/-- An average-Z sum raises no condition but those of `MAC0` and the saturation of `OTZ` (40_arith_core.md R103, R115). -/
theorem averageFlag_eq_false {f : FlagName} (hpos : f ≠ .mac0Pos) (hneg : f ≠ .mac0Neg) (hotz : f ≠ .szOtzSat) (v : Int) :
    averageFlag v f = false := by
  rw [averageFlag, mac0Flag_eq_false hpos hneg, decide_eq_false hotz, Bool.false_and, Bool.or_false]

/-- A read of another register does not depend on `MAC0` and `FLAG` (41_register_access.md R130). -/
theorem readReg_setMac0_setFlag (m : FlagMap) {q : HostReg} (hmac0 : q ≠ .mac0) (hflag : q ≠ .flag) (x : Word) (fl : BitVec 19)
    (r : RegFile) : readReg m q { r with mac0 := x, flag := fl } = readReg m q r := by
  cases q with
  | mac0 => exact absurd rfl hmac0
  | flag => exact absurd rfl hflag
  | _ => rfl

/-- A read of another register does not depend on `OTZ` (41_register_access.md R130). -/
theorem readReg_setOtz (m : FlagMap) {q : HostReg} (hotz : q ≠ .otz) (x : Half) (r : RegFile) :
    readReg m q { r with otz := x } = readReg m q r := by
  cases q with
  | otz => exact absurd rfl hotz
  | _ => rfl

/-- REGMAP gives `MAC0` index 24 and `FLAG` index 63 (10_state.md R21). -/
theorem regMap_ne_mac0_flag : ∀ idx : BitVec 6, idx.toNat ∉ [24, 63] → regMap idx ≠ .mac0 ∧ regMap idx ≠ .flag := by
  decide

/-- REGMAP gives `OTZ` index 7 (10_state.md R21). -/
theorem regMap_ne_otz : ∀ idx : BitVec 6, idx.toNat ≠ 7 → regMap idx ≠ .otz := by
  decide

/-- Both averages store some sum in `MAC0` and its quotient in `OTZ` (45_utility.md R206, R207). -/
theorem average_completes {i : Instr} (hi : i ∈ [Instr.avsz3, .avsz4]) (s : State) :
    ∃ v, Completes i s { s.regs with mac0 := BitVec.ofInt 32 v, otz := otzOf v } (averageFlag v) := by
  simp only [List.mem_cons, List.not_mem_nil, or_false] at hi
  obtain rfl | rfl := hi
  · exact ⟨_, avsz3Result s⟩
  · exact ⟨_, avsz4Result s⟩

/-- Settles O28: what the three complete with differs in the registers named, which the other indices do not read. -/
theorem frameOfScalarInstructions : Obligations.FrameOfScalarInstructions := by
  refine ⟨fun s t h => ?_, fun i s t hi h => ?_⟩
  · obtain ⟨ht, hflag⟩ := eq_of_completes (nclipResult s) h
    refine ⟨by rw [ht]; rfl, fun f hpos hneg => ?_, fun idx hidx => ?_⟩
    · rw [hflag, mac0Flag_eq_false hpos hneg, Bool.or_false]
    · obtain ⟨hmac0, hfl⟩ := regMap_ne_mac0_flag idx hidx
      rw [ht]
      exact readReg_setMac0_setFlag flagMap hmac0 hfl _ _ s.regs
  · obtain ⟨v, hv⟩ := average_completes hi s
    obtain ⟨ht, hflag⟩ := eq_of_completes hv h
    refine ⟨by rw [ht]; rfl, fun f hpos hneg hotz => ?_, fun idx hidx => ?_⟩
    · rw [hflag, averageFlag_eq_false hpos hneg hotz, Bool.or_false]
    · obtain ⟨h7, h24⟩ : idx.toNat ≠ 7 ∧ idx.toNat ∉ [24, 63] := List.ne_and_not_mem_of_not_mem_cons hidx
      obtain ⟨hmac0, hfl⟩ := regMap_ne_mac0_flag idx h24
      rw [ht]
      exact (readReg_setOtz flagMap (regMap_ne_otz idx h7) (otzOf v) { s.regs with mac0 := BitVec.ofInt 32 v, flag := _ }).trans
        (readReg_setMac0_setFlag flagMap hmac0 hfl _ _ s.regs)

/-! ### The frame of the lane instructions -/

/-- A condition of no lane's name is no lane condition. -/
theorem isLaneFlag_eq_false {f : FlagName} (hf : ∀ j, f ≠ .macPos j ∧ f ≠ .macNeg j ∧ f ≠ .irSat j) : isLaneFlag f = false := by
  cases f with
  | macPos j | macNeg j | irSat j => simpa using hf j
  | _ => rfl

/-- Storing three lane sums raises lane conditions alone (40_arith_core.md R108). -/
theorem lanesFlag_eq_false {f : FlagName} (hf : isLaneFlag f = false) (sf lm : Bool) (v : Vec3 Int) :
    lanesFlag sf lm v f = false := by
  cases f with
  | macPos j | macNeg j | irSat j => cases hf
  | _ => rfl

/-- The matrix engine raises lane conditions alone (40_arith_core.md R107). -/
theorem rowsFlag_eq_false {f : FlagName} (hf : isLaneFlag f = false) (sf lm : Bool) (m : Mat3) (v t : Vec3 Int) :
    rowsFlag sf lm m v t f = false := by
  cases f with
  | macPos j | macNeg j | irSat j => cases hf
  | _ => rfl

/-- One of the three instructions that is not refused completes with other lanes, and raises lane conditions alone. -/
theorem laneInstruction_completes {sf lm : Bool} {mx : MatrixSel} {vx : VectorSel} {tx : TransSel} {i : Instr}
    (hi : i ∈ [Instr.sqr sf lm, .op sf lm, .mvmva sf lm mx vx tx]) (hwf : i.wellFormed = true) (s : State) :
    ∃ (mac : Vec3 Word) (ir : Vec3 Half) (p : FlagName → Bool), Completes i s { s.regs with mac := mac, ir := ir } p ∧
      ∀ f, isLaneFlag f = false → p f = false := by
  simp only [List.mem_cons, List.not_mem_nil, or_false] at hi
  obtain rfl | rfl | rfl := hi
  · obtain ⟨-, hsqr⟩ := sqrResult
    obtain ⟨hc, -⟩ := hsqr sf lm s
    exact ⟨_, _, _, hc, fun f hf => lanesFlag_eq_false hf sf lm _⟩
  · obtain ⟨hc, -⟩ := opResult sf lm s
    exact ⟨_, _, _, hc, fun f hf => lanesFlag_eq_false hf sf lm _⟩
  · cases mx with
    | mat a => exact ⟨_, _, _, mvmva_completes sf lm a vx tx s, fun f hf => rowsFlag_eq_false hf sf lm _ _ _⟩
    | reserved => cases hwf

/-- A host register that reads what those write, `IRGB` and `ORGB` as views of `IR1..3` among them. -/
def readsLanes : HostReg → Bool
  | .ir _ | .mac _ | .irgb | .orgb | .flag => true
  | _ => false

/-- Through the index map those registers are these indices (10_state.md R21). -/
theorem readsLanes_regMap : ∀ idx : BitVec 6,
    idx.toNat ∉ [9, 10, 11, 25, 26, 27, 28, 29, 63] → readsLanes (regMap idx) = false := by
  decide

/-- A read of another register does not depend on what those write (41_register_access.md R130). -/
theorem readReg_of_lanes (m : FlagMap) {q : HostReg} (hq : readsLanes q = false) (mac : Vec3 Word) (ir : Vec3 Half)
    (fl : BitVec 19) (r : RegFile) : readReg m q { r with mac := mac, ir := ir, flag := fl } = readReg m q r := by
  cases q with
  | ir _ | mac _ | irgb | orgb | flag => cases hq
  | _ => rfl

/-- Settles O26: each of the three writes lanes alone, which the other indices do not read. -/
theorem frameOfLaneInstructions : Obligations.FrameOfLaneInstructions := by
  intro sf lm mx vx tx i s t hi h
  obtain ⟨mac, ir, p, hc, hlane⟩ := laneInstruction_completes hi (wellFormed_of_exec_next h) s
  obtain ⟨ht, hflag⟩ := eq_of_completes hc h
  refine ⟨by rw [ht]; rfl, fun f hf => ?_, fun f hf => ?_, fun idx hidx => ?_⟩
  · rw [hflag, hlane f (isLaneFlag_eq_false hf), Bool.or_false]
  · rw [hflag, hf, Bool.true_or]
  · rw [ht]
    exact readReg_of_lanes flagMap (readsLanes_regMap idx hidx) mac ir _ s.regs

end Sys2Proof.Proofs
end

section
/-! Where a step stops (spec/60_exceptions.md R220, R224): every command word but that of `mvmva` with the reserved matrix is
accepted, so every other step answers a next state; and the entries of the diagnostics log (R232). -/

namespace Sys2Proof.Proofs

open Sys2Proof Sys2Proof.Machine Sys2Proof.Safety Sys2Proof.Laws

/-! ### The one input on which a step stops -/

/-- Every value of the matrix selector but 3 names a matrix (30_encoding.md R85, R89). -/
theorem wellFormed_matrixSel {b : BitVec 2} (h : b.toNat ≠ 3) : (matrixSel b).wellFormed = true := by
  revert b
  decide

/-- Only `mvmva` has a reserved operand value (30_encoding.md R89). -/
theorem wellFormed_instr_of_ne_mvmva {o : Operation} (ho : o ≠ .mvmva) (f : CmdFields) : (o.instr f).wellFormed = true := by
  cases o with
  | mvmva => exact absurd rfl ho
  | _ => rfl

/-- Every command word but that of `mvmva` with the reserved matrix is accepted (60_exceptions.md R224). -/
theorem accepted_command {cmd : Word} (h : ¬(cmd.toNat % 64 = 0x12 ∧ cmd.toNat / 2 ^ 17 % 4 = 3)) :
    accepted (.command cmd) = true := by
  rw [accepted, decode_eq]
  cases ho : operationWith opcodeOf (fieldsOf cmd).opcode with
  | none => rfl
  | some o =>
    change (o.instr (fieldsOf cmd)).wellFormed = true
    by_cases hmvmva : o = .mvmva
    · subst hmvmva
      have hop : cmd.toNat % 64 = 0x12 := by
        rw [← fieldsOf_opcode_toNat, ← opcode_of_operationWith ho]
        rfl
      exact wellFormed_matrixSel fun hmx => h ⟨hop, (extractLsb'_two_toNat cmd 17).symm.trans hmx⟩
    · exact wellFormed_instr_of_ne_mvmva hmvmva _

/-- Settles O9: that command is refused; any other transaction is accepted, so it completes, and with none pending the step is
idle. -/
theorem onlyReservedMatrixStops : Obligations.OnlyReservedMatrixStops := by
  intro s
  refine ⟨fun cmd rest hpending hop hmx => ?_, fun h => ?_⟩
  · obtain ⟨hrefused, -⟩ := reservedMatrixRefusedOrConfigured
    rw [step_of_command_pending hpending]
    exact hrefused cmd _ hop hmx
  · cases hpending : s.pending with
    | nil =>
      rw [step_eq, hpending]
      exact ⟨s, rfl⟩
    | cons x rest =>
      have hx : accepted x = true := by
        cases x with
        | read idx | write idx w => rfl
        | command cmd => exact accepted_command (h cmd rest hpending)
      obtain ⟨t, ht, -⟩ := perform_next_of_accepted hx { s with pending := rest }
      exact ⟨t, (step_of_pending hpending).trans ht⟩

/-! ### The diagnostics log -/

/-- A step that answers a next state logs the transaction it takes, before the log of the steps that follow
(60_exceptions.md R232). -/
theorem trace_succ_of_step {s u : State} {x : Transaction} {rest : List Transaction} (hpending : s.pending = x :: rest)
    (hstep : step s = .next u) (k : Nat) : trace (k + 1) s = logEntry x s.regs :: trace k u := by
  have htake : takeNextWith params exec s = .next u := hstep
  rw [trace, traceWith, hpending, htake]
  rfl

/-- The index of a command's entry is its opcode, the low six bits of the word (30_encoding.md R81, 60_exceptions.md R232). -/
theorem logEntry_command (cmd : Word) (r : RegFile) :
    logEntry (.command cmd) r = { mode := .func, index := cmd.setWidth 6, data := cmd } := by
  rw [BitVec.setWidth_eq_extractLsb' (by decide)]
  rfl

/-- Settles O10: one step logs the transaction taken and then nothing; a read and a write log their index and word, a command
its opcode and word. -/
theorem logListsTheTransactionTaken : Obligations.LogListsTheTransactionTaken :=
  ⟨fun _ _ _ _ hpending hstep => trace_succ_of_step hpending hstep 0, fun _ _ => rfl, fun _ _ _ => rfl,
    fun r cmd => logEntry_command cmd r⟩

end Sys2Proof.Proofs
end

section
/-! The reset state (spec/70_reset_and_hazards.md R240, decision D29): RESET_STATE is zero in every field, so every register of
the host reads 0 but `LZCR`, the count of the leading zeros of `LZCS`. -/

namespace Sys2Proof.Proofs

open Sys2Proof Sys2Proof.Machine Sys2Proof.Laws

/-! ### The slots of the reset register file -/

theorem zeroVec_get (n : Nat) (i : Lane) : (zeroVec n).get i = 0 := by
  cases i <;> rfl

theorem matrixPair_zeroMat (j : Fin 4) : matrixPair zeroMat j = (0, 0) := by
  fin_cases j <;> rfl

theorem vertex_reset (n : Fin 3) : vertex n RegFile.reset = zeroVec 16 := by
  fin_cases n <;> rfl

theorem matrix_reset (a : MatrixName) : matrix a RegFile.reset = zeroMat := by
  cases a <;> rfl

theorem translation_reset (t : TransName) : translation t RegFile.reset = zeroVec 32 := by
  cases t <;> rfl

theorem sxy_reset (k : Fin 3) : sxy k RegFile.reset = { x := 0, y := 0 } := by
  fin_cases k <;> rfl

theorem sz_reset (k : Fin 4) : sz k RegFile.reset = 0 := by
  fin_cases k <;> rfl

theorem rgb_reset (k : Fin 3) : rgb k RegFile.reset = { r := 0, g := 0, b := 0, code := 0 } := by
  fin_cases k <;> rfl

/-! ### What the host reads -/

/-- Zero fields read 0, extended, packed or viewed (41_register_access.md R130). -/
theorem readReg_reset_of_ne_lzcr {q : HostReg} (hq : q ≠ .lzcr) : readReg flagMap q RegFile.reset = 0 := by
  cases q with
  | lzcr => exact absurd rfl hq
  | vxy n | vz n => rw [readReg, vertex_reset]; rfl
  | ir i => exact congrArg readSigned (zeroVec_get 16 i)
  | mac i => exact zeroVec_get 32 i
  | sxy k => rw [readReg, sxy_reset]; rfl
  | sz k => rw [readReg, sz_reset]; rfl
  | rgb k => rw [readReg, rgb_reset]; rfl
  | matPair a j => rw [readReg, matrix_reset, matrixPair_zeroMat]; rfl
  | mat33 a => rw [readReg, matrix_reset]; rfl
  | trans t i => rw [readReg, translation_reset, zeroVec_get]
  | _ => rfl

/-- All 32 bits of a zero `LZCS` are leading zeros (40_arith_core.md R110). -/
theorem readReg_reset_lzcr : readReg flagMap .lzcr RegFile.reset = 32 := rfl

/-- `LZCR` stands at index 31 alone (10_state.md R21). -/
theorem regMap_ne_lzcr : ∀ idx : BitVec 6, idx ≠ 31 → regMap idx ≠ .lzcr := by
  decide

/-- Settles O11: index 31 is `LZCR`, every other index a register that reads 0; the interface is empty at reset. -/
theorem resetReadsZero : Obligations.ResetReadsZero := by
  refine ⟨fun idx => ?_, rfl, rfl⟩
  rw [readIndex_eq]
  by_cases hidx : idx = 31
  · rw [if_pos hidx, hidx]
    exact readReg_reset_lzcr
  · rw [if_neg hidx]
    exact readReg_reset_of_ne_lzcr (regMap_ne_lzcr idx hidx)

end Sys2Proof.Proofs
end
